-- ==== Sys2Proof/Word.lean ====
section
/-! DEFINITION. The words of the hardware: bytes, byte orders, and the PRESENTED WORD, one bit string that a caller puts on
the input ports of one block (the hardware fetches no instructions, R21; a caller presents requests, R193). -/

namespace Sys2Proof

/-- A byte of a buffer (R11: `u8`). -/
abbrev Byte := BitVec 8

/-- The byte order of a buffer (R12, R42). -/
inductive ByteOrder where
  | little
  | big
  deriving DecidableEq, Repr

/-- On whose ports a word is presented, and in which format of spec/opcode_table.json.
The table has three formats, `REQ`, `X80` and `PORT` (R63, R60, R65).
DESIGN CHOICE (log 2): the table gives `PORT` rows no bits, so here each of the four blocks has a format of its own, and the
`X80` rows are told apart by how far the operand is followed: to its class, or through class `NORMAL` to the normalizer's row. -/
inductive Format where
  /-- `REQ` (R63): the input ports of `extended_to_double_converter`, 89 bits in 12 bytes. -/
  | req
  /-- `X80` (R60), followed to its class: a row `CLASS.*` of the operand decode. -/
  | x80Class
  /-- `X80` (R60), followed through class `NORMAL` to one of the rows `NORMALIZE.*`. -/
  | x80Operand
  /-- `PORT`: the input ports of an `fp_field_extractor` built with these widths (R31). -/
  | extractor (ew mw : Nat)
  /-- `PORT`: the input ports of an `fp_field_packer` built with these widths (R32). -/
  | packer (ew mw : Nat)
  /-- `PORT`: the input ports of an `fp_format_classifier` (R33). -/
  | classifier
  /-- `PORT`: the input ports of an `fp_rounding_normalizer` (R34). -/
  | normalizer
  /-- A bit count for which the table has no format. -/
  | unknown (nbits : Nat)
  deriving DecidableEq, Repr

/-- A presented word: the port format and the bytes put on it, byte 0 carrying bits 7 to 0. -/
structure Word where
  format : Format
  bytes : List Byte
  deriving DecidableEq, Repr

end Sys2Proof
end

