-- ==== Sys2Proof/Config.lean ====
section
/-! DEFINITION. What is fixed when the hardware is built: the two format descriptors, the widths the generic codec admits, and
the NaN pattern (00_scope.md R7, R8, R9). -/

namespace Sys2Proof.Config

/-- A format descriptor (R7). -/
structure FormatDescriptor where
  exponentWidth : Nat
  mantissaWidth : Nat
  bias : Nat
  deriving DecidableEq, Repr

/-- `EXT`, the extended format (R7). -/
def ext : FormatDescriptor := ⟨15, 64, 16383⟩

/-- `DBL`, the double format (R7). -/
def dbl : FormatDescriptor := ⟨11, 52, 1023⟩

/-- The byte length of a format, `ceil((1 + EW + MW) / 8)` (R7, R80). -/
def byteCount (ew mw : Nat) : Nat := (1 + ew + mw + 7) / 8

/-- The width pairs the codec may be built with (R83, decision D13): both at least 1, and whole bytes. -/
def admitted (ew mw : Nat) : Bool := decide (1 ≤ ew) && decide (1 ≤ mw) && (1 + ew + mw) % 8 == 0

/-- `EXT_BYTES` (R8). -/
def extBytes : Nat := byteCount ext.exponentWidth ext.mantissaWidth

/-- `DBL_BYTES` (R8). -/
def dblBytes : Nat := byteCount dbl.exponentWidth dbl.mantissaWidth

/-- `SHIFT`: how many fraction bits the narrowing drops (R8). -/
def shift : Nat := ext.mantissaWidth - dbl.mantissaWidth - 1

/-- `NAN_OUT`, the one NaN pattern the hardware emits (R141, R9).
The spec's own decision D7: the source says only "NaN" (log 5). -/
def nanOut : BitVec 64 := 0x7FF8000000000000#64

end Sys2Proof.Config
end

