-- ==== Sys2Proof/Syntax.lean ====
section
/-! DEFINITION. Instructions: one constructor for every row of spec/opcode_table.json, with the row's free fields as operands.
The fixed bits of a row (R70) are no operand: they are in the constructor's name. -/

namespace Sys2Proof

/-- FloatFields (R19, R62): each field is exactly as wide as its port, so an oversized field cannot be written down (R92). -/
structure FloatFields (ew mw : Nat) where
  sign : BitVec 1
  exponent : BitVec ew
  mantissa : BitVec mw
  deriving DecidableEq, Repr

/-- A buffer on the input ports of an extractor (R31): its length, and its lanes, lane `k` in bits `8k+7:8k`. -/
structure BufferPorts (ew mw : Nat) where
  len : BitVec 8
  data : BitVec (8 * Config.byteCount ew mw)
  deriving DecidableEq, Repr

/-- The 22 operations of the table (R70). -/
inductive Instr where
  /-- `X2D.LE`: `byte_order = 0`, `in_len = 10` (R135). -/
  | x2dLe (data : BitVec 80)
  /-- `X2D.BE`: `byte_order = 1`, `in_len = 10` (R135). -/
  | x2dBe (data : BitVec 80)
  /-- `X2D.ILLEGAL_LENGTH`: any other `REQ` (R71). -/
  | x2dIllegalLength (byteOrder : BitVec 1) (len : BitVec 8) (data : BitVec 80)
  /-- `DECOMPOSE(order, EW, MW; B)` (R80), with `B` as it stands on the ports (R31); `decomposeBuffer` puts it there. -/
  | decompose (order : ByteOrder) (ew mw : Nat) (buffer : BufferPorts ew mw)
  /-- `RECOMPOSE(order, EW, MW; sign, exponent, mantissa)` (R90). -/
  | recompose (order : ByteOrder) (ew mw : Nat) (fields : FloatFields ew mw)
  /-- `CLASSIFY(E, M)` (R100). -/
  | classify (e : BitVec 15) (m : BitVec 64)
  /-- `NORMALIZE(E, M)` (R120). -/
  | normalize (e : BitVec 15) (m : BitVec 64)
  /-- `CLASS.ZERO` (R102): `E = 0`, `M = 0`. -/
  | classZero (sign : BitVec 1)
  /-- `CLASS.DENORMAL` (R103): `E = 0`, `M = {0, frac}`, `frac != 0`. -/
  | classDenormal (sign : BitVec 1) (frac : BitVec 63)
  /-- `CLASS.PSEUDO_DENORMAL` (R104): `E = 0`, `M = {1, frac}`. -/
  | classPseudoDenormal (sign : BitVec 1) (frac : BitVec 63)
  /-- `CLASS.PSEUDO_INF` (R105): `E = 32767`, `M = 0`. -/
  | classPseudoInf (sign : BitVec 1)
  /-- `CLASS.PSEUDO_NAN_LO` (R106): `E = 32767`, `M = {00, low}`, `low != 0`. -/
  | classPseudoNanLo (sign : BitVec 1) (low : BitVec 62)
  /-- `CLASS.PSEUDO_NAN_HI` (R107): `E = 32767`, `M = {01, low}`. -/
  | classPseudoNanHi (sign : BitVec 1) (low : BitVec 62)
  /-- `CLASS.INF` (R108): `E = 32767`, `M = {10, 0}`. -/
  | classInf (sign : BitVec 1)
  /-- `CLASS.NAN` (R109): `E = 32767`, `M = {10, low}`, `low != 0`. -/
  | classNan (sign : BitVec 1) (low : BitVec 62)
  /-- `CLASS.INDEFINITE` (R110): `E = 32767`, `M = {11, 0}`. -/
  | classIndefinite (sign : BitVec 1)
  /-- `CLASS.QUIET_NAN` (R111): `E = 32767`, `M = {11, low}`, `low != 0`. -/
  | classQuietNan (sign : BitVec 1) (low : BitVec 62)
  /-- `CLASS.NORMAL` (R112): `0 < E < 32767`. -/
  | classNormal (sign : BitVec 1) (e : BitVec 15) (m : BitVec 64)
  /-- `NORMALIZE.UNNORMAL` (R126): `0 < E < 32767`, `M = {0, frac}`. -/
  | normalizeUnnormal (sign : BitVec 1) (e : BitVec 15) (frac : BitVec 63)
  /-- `NORMALIZE.TOO_SMALL` (R122): `1 <= E <= 15359`, `M = {1, frac}`. -/
  | normalizeTooSmall (sign : BitVec 1) (e : BitVec 15) (frac : BitVec 63)
  /-- `NORMALIZE.TOO_LARGE` (R123): `17407 <= E <= 32766`, `M = {1, frac}`. -/
  | normalizeTooLarge (sign : BitVec 1) (e : BitVec 15) (frac : BitVec 63)
  /-- `NORMALIZE.OK` (R120): `15360 <= E <= 17406`, `M = {1, frac}`. -/
  | normalizeOk (sign : BitVec 1) (e : BitVec 15) (frac : BitVec 63)
  deriving DecidableEq, Repr

/-- The row's name in spec/opcode_table.json, letter for letter. -/
def Instr.mnemonic : Instr → String
  | .x2dLe _ => "X2D.LE"
  | .x2dBe _ => "X2D.BE"
  | .x2dIllegalLength _ _ _ => "X2D.ILLEGAL_LENGTH"
  | .decompose _ _ _ _ => "DECOMPOSE"
  | .recompose _ _ _ _ => "RECOMPOSE"
  | .classify _ _ => "CLASSIFY"
  | .normalize _ _ => "NORMALIZE"
  | .classZero _ => "CLASS.ZERO"
  | .classDenormal _ _ => "CLASS.DENORMAL"
  | .classPseudoDenormal _ _ => "CLASS.PSEUDO_DENORMAL"
  | .classPseudoInf _ => "CLASS.PSEUDO_INF"
  | .classPseudoNanLo _ _ => "CLASS.PSEUDO_NAN_LO"
  | .classPseudoNanHi _ _ => "CLASS.PSEUDO_NAN_HI"
  | .classInf _ => "CLASS.INF"
  | .classNan _ _ => "CLASS.NAN"
  | .classIndefinite _ => "CLASS.INDEFINITE"
  | .classQuietNan _ _ => "CLASS.QUIET_NAN"
  | .classNormal _ _ _ => "CLASS.NORMAL"
  | .normalizeUnnormal _ _ _ => "NORMALIZE.UNNORMAL"
  | .normalizeTooSmall _ _ _ => "NORMALIZE.TOO_SMALL"
  | .normalizeTooLarge _ _ _ => "NORMALIZE.TOO_LARGE"
  | .normalizeOk _ _ _ => "NORMALIZE.OK"

end Sys2Proof
end

