-- ==== Sys2Proof/Machine/Operands.lean ====
section
/-! DEFINITION. Operand assembly (30_encoding.md R60 to R69, 00_scope.md R11, R12): buffers as integers, fields out of an
integer and back, and the slices of the extended operand that the blocks test. -/

namespace Sys2Proof.Machine

open Sys2Proof

/-- `U(B, little)`: index 0 is least significant (R12). -/
def littleValue : List Byte → Nat
  | [] => 0
  | b :: bs => b.toNat + 256 * littleValue bs

/-- `U(B, big)`: index 0 is most significant (R12), reading from the front with the value so far. -/
def bigValueFrom (acc : Nat) : List Byte → Nat
  | [] => acc
  | b :: bs => bigValueFrom (256 * acc + b.toNat) bs

/-- `U(B, order)`: the unsigned integer a buffer spells (R12). -/
def unsignedOf (order : ByteOrder) (B : List Byte) : Nat :=
  match order with
  | .little => littleValue B
  | .big => bigValueFrom 0 B

/-- `Bytes(N, n, little)` (R12). -/
def littleBytes : Nat → Nat → List Byte
  | 0, _ => []
  | n + 1, N => BitVec.ofNat 8 N :: littleBytes n (N / 256)

/-- `Bytes(N, n, big)` (R12). -/
def bigBytes : Nat → Nat → List Byte
  | 0, _ => []
  | n + 1, N => BitVec.ofNat 8 (N / 256 ^ n) :: bigBytes n N

/-- `Bytes(N, n, order)`: the buffer of `n` bytes that spells `N` (R12). -/
def bytesOf (order : ByteOrder) (n N : Nat) : List Byte :=
  match order with
  | .little => littleBytes n N
  | .big => bigBytes n N

/-- The `byte_order` port of an order: 0 little, 1 big (R43). -/
def orderPort : ByteOrder → BitVec 1
  | .little => 0#1
  | .big => 1#1

/-- The order a `byte_order` port selects; a port tied to 0 is little (R43). -/
def portOrder (p : BitVec 1) : ByteOrder := if p = 0#1 then .little else .big

/-- The length port of a buffer: its length, 255 for anything longer (R30, R81, decision D4). -/
def lenPort (B : List Byte) : BitVec 8 := BitVec.ofNat 8 (min B.length 255)

/-- The `n` data lanes of a buffer: lane `k`, bits `8k+7:8k`, carries `B[k]` (R30, R31); bytes beyond the lanes are not presented.
DESIGN CHOICE (log 4): the lanes beyond a shorter buffer's end are 0; they are not looked at (R30). -/
def lanePort (n : Nat) (B : List Byte) : BitVec (8 * n) := BitVec.ofNat (8 * n) (littleValue (B.take n))

/-- Fields out of the integer `N`, by shift and mask (R66). -/
def unpack (ew mw N : Nat) : FloatFields ew mw where
  sign := BitVec.ofNat 1 (N >>> (mw + ew))
  exponent := BitVec.ofNat ew (N >>> mw)
  mantissa := BitVec.ofNat mw N

/-- The integer `N` out of fields: sign highest, exponent middle, mantissa lowest (R67). -/
def packed {ew mw : Nat} (f : FloatFields ew mw) : Nat :=
  (f.sign.toNat <<< (ew + mw)) ||| (f.exponent.toNat <<< mw) ||| f.mantissa.toNat

/-- The extended operand `N = {sign, E, M}` (R60). -/
def x80 (sign : BitVec 1) (e : BitVec 15) (m : BitVec 64) : BitVec 80 := sign ++ e ++ m

/-- `N[79]` (R60). -/
def x80Sign (n : BitVec 80) : BitVec 1 := n.extractLsb' 79 1

/-- `E = N[78:64]` (R60). -/
def x80Exponent (n : BitVec 80) : BitVec 15 := n.extractLsb' 64 15

/-- `M = N[63:0]` (R60). -/
def x80Mantissa (n : BitVec 80) : BitVec 64 := n.extractLsb' 0 64

/-- `M[63]`, the integer bit (R60). -/
def integerBit (m : BitVec 64) : BitVec 1 := m.extractLsb' 63 1

/-- `M[63:62]`, the selector of the rows with `E = 32767` (R60). -/
def selector (m : BitVec 64) : BitVec 2 := m.extractLsb' 62 2

/-- `M[61:0]`, the document's "low62" (R60). -/
def low62 (m : BitVec 64) : BitVec 62 := m.extractLsb' 0 62

/-- `frac63 = M[62:0]`: the integer bit stripped (R68). -/
def frac63 (m : BitVec 64) : BitVec 63 := m.extractLsb' 0 63

/-- `mant52 = frac63 >> 11`: truncation, nothing is added (R68, R124). -/
def mant52 (m : BitVec 64) : BitVec 52 := (frac63 m >>> Config.shift).setWidth 52

/-- `M[10:0]`: the bits the narrowing drops (R124). -/
def discarded (m : BitVec 64) : BitVec 11 := m.extractLsb' 0 11

/-- `e_double = E - 16383 + 1023` in unbounded integers: it never wraps (R121, R13). -/
def eDouble (e : BitVec 15) : Int := (e.toNat : Int) - Config.ext.bias + Config.dbl.bias

/-- The fields of `NAN_OUT` (R141). -/
def nanFields : FloatFields 11 52 := unpack 11 52 Config.nanOut.toNat

end Sys2Proof.Machine
end

