-- ==== Sys2Proof/WellFormed.lean ====
section
/-! DEFINITION. Which instructions are well formed: the constraints of spec/opcode_table.json that the operand types leave
open, one by one (R70, R71, R83). -/

namespace Sys2Proof

/-- The constraint column of the table, row by row. -/
def Instr.wellFormed : Instr → Bool
  | .x2dLe _ => true
  | .x2dBe _ => true
  | .x2dIllegalLength _ len _ => len != 10#8
  | .decompose _ ew mw _ => Config.admitted ew mw
  | .recompose _ ew mw _ => Config.admitted ew mw
  | .classify _ _ => true
  | .normalize _ _ => true
  | .classZero _ => true
  | .classDenormal _ frac => frac != 0#63
  | .classPseudoDenormal _ _ => true
  | .classPseudoInf _ => true
  | .classPseudoNanLo _ low => low != 0#62
  | .classPseudoNanHi _ _ => true
  | .classInf _ => true
  | .classNan _ low => low != 0#62
  | .classIndefinite _ => true
  | .classQuietNan _ low => low != 0#62
  | .classNormal _ e _ => decide (0 < e.toNat) && decide (e.toNat < 32767)
  | .normalizeUnnormal _ e _ => decide (0 < e.toNat) && decide (e.toNat < 32767)
  | .normalizeTooSmall _ e _ => decide (1 ≤ e.toNat) && decide (e.toNat ≤ 15359)
  | .normalizeTooLarge _ e _ => decide (17407 ≤ e.toNat) && decide (e.toNat ≤ 32766)
  | .normalizeOk _ e _ => decide (15360 ≤ e.toNat) && decide (e.toNat ≤ 17406)

end Sys2Proof
end

