-- ==== Sys2Proof/Decode.lean ====
section
/-! DEFINITION. The decoder of presented words, total and rejecting by name, and after it the encoder (R63 to R75).
The hardware decodes data, not instruction words: `REQ` and `X80` are the spec's, the layouts of `PORT` words are this model's
(DESIGN CHOICE, log 2). -/

namespace Sys2Proof

open Sys2Proof.Machine

/-- Why a presented word stands for no operation. -/
inductive DecodeError where
  /-- The word has not the byte count of its port format. -/
  | wrongSize
  /-- A bit is set for which the port has no wire (R30, R92: such a value cannot be presented). -/
  | noSuchWire
  /-- A codec block is not built with these widths (R83: refused at build time). -/
  | widthsNotAdmitted
  /-- The table has no format of this bit count. -/
  | noSuchFormat
  deriving DecidableEq, Repr

/-- One row of spec/opcode_table.json in format `X80`: `N & mask = pattern` and the further condition (R70). -/
structure X80Row where
  mnemonic : String
  pattern : BitVec 80
  mask : BitVec 80
  condition : BitVec 80 → Bool

/-- The operand lies in the row (R70: told apart by the condition, never by order). -/
def X80Row.matches (r : X80Row) (n : BitVec 80) : Bool := n &&& r.mask == r.pattern && r.condition n

/-- `lo <= E <= hi`, the form of the exponent conditions of the table. -/
def exponentIn (lo hi : Nat) (n : BitVec 80) : Bool :=
  decide (lo ≤ (x80Exponent n).toNat) && decide ((x80Exponent n).toNat ≤ hi)

/-- The eleven class rows of the table (R70). -/
def classRows : List X80Row :=
  [⟨"CLASS.ZERO", 0x00000000000000000000#80, 0x7FFFFFFFFFFFFFFFFFFF#80, fun _ => true⟩,
   ⟨"CLASS.DENORMAL", 0x00000000000000000000#80, 0x7FFF8000000000000000#80, fun n => n.extractLsb' 0 63 != 0#63⟩,
   ⟨"CLASS.PSEUDO_DENORMAL", 0x00008000000000000000#80, 0x7FFF8000000000000000#80, fun _ => true⟩,
   ⟨"CLASS.PSEUDO_INF", 0x7FFF0000000000000000#80, 0x7FFFFFFFFFFFFFFFFFFF#80, fun _ => true⟩,
   ⟨"CLASS.PSEUDO_NAN_LO", 0x7FFF0000000000000000#80, 0x7FFFC000000000000000#80, fun n => n.extractLsb' 0 62 != 0#62⟩,
   ⟨"CLASS.PSEUDO_NAN_HI", 0x7FFF4000000000000000#80, 0x7FFFC000000000000000#80, fun _ => true⟩,
   ⟨"CLASS.INF", 0x7FFF8000000000000000#80, 0x7FFFFFFFFFFFFFFFFFFF#80, fun _ => true⟩,
   ⟨"CLASS.NAN", 0x7FFF8000000000000000#80, 0x7FFFC000000000000000#80, fun n => n.extractLsb' 0 62 != 0#62⟩,
   ⟨"CLASS.INDEFINITE", 0x7FFFC000000000000000#80, 0x7FFFFFFFFFFFFFFFFFFF#80, fun _ => true⟩,
   ⟨"CLASS.QUIET_NAN", 0x7FFFC000000000000000#80, 0x7FFFC000000000000000#80, fun n => n.extractLsb' 0 62 != 0#62⟩,
   ⟨"CLASS.NORMAL", 0x00000000000000000000#80, 0x00000000000000000000#80, exponentIn 1 32766⟩]

/-- The four rows of the normalizer, all inside `CLASS.NORMAL` (R70, R127). -/
def normalizeRows : List X80Row :=
  [⟨"NORMALIZE.UNNORMAL", 0x00000000000000000000#80, 0x00008000000000000000#80, exponentIn 1 32766⟩,
   ⟨"NORMALIZE.TOO_SMALL", 0x00008000000000000000#80, 0x00008000000000000000#80, exponentIn 1 15359⟩,
   ⟨"NORMALIZE.TOO_LARGE", 0x00008000000000000000#80, 0x00008000000000000000#80, exponentIn 17407 32766⟩,
   ⟨"NORMALIZE.OK", 0x00008000000000000000#80, 0x00008000000000000000#80, exponentIn 15360 17406⟩]

/-- The class row of an operand, read off the columns of the table for R70: `E`, then `M[63:62]`, then `M[61:0]`. -/
def decodeClass (n : BitVec 80) : Instr :=
  let s := x80Sign n
  let m := x80Mantissa n
  if x80Exponent n = 0#15 then
    if integerBit m = 1#1 then .classPseudoDenormal s (frac63 m)
    else if frac63 m = 0#63 then .classZero s
    else .classDenormal s (frac63 m)
  else if x80Exponent n = 32767#15 then
    if selector m = 0b00#2 then
      if low62 m = 0#62 then .classPseudoInf s else .classPseudoNanLo s (low62 m)
    else if selector m = 0b01#2 then .classPseudoNanHi s (low62 m)
    else if selector m = 0b10#2 then
      if low62 m = 0#62 then .classInf s else .classNan s (low62 m)
    else
      if low62 m = 0#62 then .classIndefinite s else .classQuietNan s (low62 m)
  else .classNormal s (x80Exponent n) m

/-- The row of an operand followed through class `NORMAL` to the normalizer's row (R70, R127). -/
def decodeOperand (n : BitVec 80) : Instr :=
  let s := x80Sign n
  let e := x80Exponent n
  let f := frac63 (x80Mantissa n)
  if e = 0#15 ∨ e = 32767#15 then decodeClass n
  else if integerBit (x80Mantissa n) = 0#1 then .normalizeUnnormal s e f
  else if e.toNat ≤ 15359 then .normalizeTooSmall s e f
  else if 17407 ≤ e.toNat then .normalizeTooLarge s e f
  else .normalizeOk s e f

/-- The operation of a request vector `REQ = {byte_order, in_len, in_data}` (R63, R70, R71). -/
def decodeReq (v : BitVec 89) : Instr :=
  let len := v.extractLsb' 80 8
  let data := v.extractLsb' 0 80
  if len = 10#8 then
    if v.extractLsb' 88 1 = 0#1 then .x2dLe data else .x2dBe data
  else .x2dIllegalLength (v.extractLsb' 88 1) len data

/-- The number on a port of `bits` wires that is presented in `size` bytes. -/
def portBits (size bits : Nat) (bytes : List Byte) : Except DecodeError Nat :=
  if bytes.length ≠ size then .error .wrongSize
  else if littleValue bytes < 2 ^ bits then .ok (littleValue bytes)
  else .error .noSuchWire

/-- A `byte_order` port presented as one byte (R43: one wire). -/
def orderByte (b : Byte) : Except DecodeError ByteOrder :=
  if b = 0#8 then .ok .little else if b = 1#8 then .ok .big else .error .noSuchWire

/-- An extractor's word: the byte order, the length port, then the `NB` data lanes (R31). -/
def decodeExtractor (ew mw : Nat) : List Byte → Except DecodeError Instr
  | o :: len :: lanes => do
    let N ← portBits (Config.byteCount ew mw) (8 * Config.byteCount ew mw) lanes
    let order ← orderByte o
    pure (.decompose order ew mw ⟨len, BitVec.ofNat _ N⟩)
  | _ => .error .wrongSize

/-- A packer's word: the byte order, then `{sign, exponent, mantissa}` in `NB` bytes (R32, R62). -/
def decodePacker (ew mw : Nat) : List Byte → Except DecodeError Instr
  | o :: fields => do
    let N ← portBits (Config.byteCount ew mw) (1 + ew + mw) fields
    let order ← orderByte o
    pure (.recompose order ew mw (unpack ew mw N))
  | [] => .error .wrongSize

/-- The decoder: the operation a presented word stands for, or why it stands for none. -/
def decode (w : Word) : Except DecodeError Instr :=
  match w.format with
  | .req => do
    let N ← portBits 12 89 w.bytes
    pure (decodeReq (BitVec.ofNat 89 N))
  | .x80Class => do
    let N ← portBits 10 80 w.bytes
    pure (decodeClass (BitVec.ofNat 80 N))
  | .x80Operand => do
    let N ← portBits 10 80 w.bytes
    pure (decodeOperand (BitVec.ofNat 80 N))
  | .extractor ew mw =>
    if Config.admitted ew mw then decodeExtractor ew mw w.bytes else .error .widthsNotAdmitted
  | .packer ew mw =>
    if Config.admitted ew mw then decodePacker ew mw w.bytes else .error .widthsNotAdmitted
  | .classifier => do
    let N ← portBits 10 79 w.bytes
    pure (.classify (BitVec.ofNat 15 (N >>> 64)) (BitVec.ofNat 64 N))
  | .normalizer => do
    let N ← portBits 10 79 w.bytes
    pure (.normalize (BitVec.ofNat 15 (N >>> 64)) (BitVec.ofNat 64 N))
  | .unknown _ => .error .noSuchFormat

/-! ### The operand of each `X80` row, written from the row's `encoding` in the table (R70) -/

/-- `s`, fifteen zeros, sixty-four zeros. -/
def zeroOperand (s : BitVec 1) : BitVec 80 := x80 s 0#15 0#64
/-- `s`, fifteen zeros, `0`, the fraction. -/
def denormalOperand (s : BitVec 1) (frac : BitVec 63) : BitVec 80 := x80 s 0#15 (0b0#1 ++ frac)
/-- `s`, fifteen zeros, `1`, the fraction. -/
def pseudoDenormalOperand (s : BitVec 1) (frac : BitVec 63) : BitVec 80 := x80 s 0#15 (0b1#1 ++ frac)
/-- `s`, fifteen ones, sixty-four zeros. -/
def pseudoInfOperand (s : BitVec 1) : BitVec 80 := x80 s 0x7FFF#15 0#64
/-- `s`, fifteen ones, `00`, the low bits. -/
def pseudoNanLoOperand (s : BitVec 1) (low : BitVec 62) : BitVec 80 := x80 s 0x7FFF#15 (0b00#2 ++ low)
/-- `s`, fifteen ones, `01`, the low bits. -/
def pseudoNanHiOperand (s : BitVec 1) (low : BitVec 62) : BitVec 80 := x80 s 0x7FFF#15 (0b01#2 ++ low)
/-- `s`, fifteen ones, `10`, zeros. -/
def infOperand (s : BitVec 1) : BitVec 80 := x80 s 0x7FFF#15 (0b10#2 ++ 0#62)
/-- `s`, fifteen ones, `10`, the low bits. -/
def nanOperand (s : BitVec 1) (low : BitVec 62) : BitVec 80 := x80 s 0x7FFF#15 (0b10#2 ++ low)
/-- `s`, fifteen ones, `11`, zeros. -/
def indefiniteOperand (s : BitVec 1) : BitVec 80 := x80 s 0x7FFF#15 (0b11#2 ++ 0#62)
/-- `s`, fifteen ones, `11`, the low bits. -/
def quietNanOperand (s : BitVec 1) (low : BitVec 62) : BitVec 80 := x80 s 0x7FFF#15 (0b11#2 ++ low)
/-- `s`, the exponent, `0`, the fraction: row `NORMALIZE.UNNORMAL`. -/
def unnormalOperand (s : BitVec 1) (e : BitVec 15) (frac : BitVec 63) : BitVec 80 := x80 s e (0b0#1 ++ frac)
/-- `s`, the exponent, `1`, the fraction: the three rows with the integer bit set. -/
def normalizedOperand (s : BitVec 1) (e : BitVec 15) (frac : BitVec 63) : BitVec 80 := x80 s e (0b1#1 ++ frac)

/-- A `REQ` word: `REQ[88] = byte_order`, `REQ[87:80] = in_len`, `REQ[79:0] = in_data` (R63), in 12 bytes. -/
def reqWord (byteOrder : BitVec 1) (len : BitVec 8) (data : BitVec 80) : Word :=
  ⟨.req, littleBytes 12 (byteOrder ++ len ++ data).toNat⟩

/-- An `X80` word followed to its class. -/
def classWord (n : BitVec 80) : Word := ⟨.x80Class, littleBytes 10 n.toNat⟩

/-- An `X80` word followed to the normalizer's row. -/
def operandWord (n : BitVec 80) : Word := ⟨.x80Operand, littleBytes 10 n.toNat⟩

/-- A `byte_order` port as one byte (R43). -/
def byteOfOrder : ByteOrder → Byte
  | .little => 0#8
  | .big => 1#8

/-- `DECOMPOSE(order, EW, MW; B)` for a buffer of any length: `B` on the extractor's ports (R31, R80). -/
def decomposeBuffer (order : ByteOrder) (ew mw : Nat) (B : List Byte) : Instr :=
  .decompose order ew mw ⟨lenPort B, lanePort (Config.byteCount ew mw) B⟩

/-- The word that presents an instruction. -/
def encode : Instr → Word
  | .x2dLe data => reqWord 0#1 10#8 data
  | .x2dBe data => reqWord 1#1 10#8 data
  | .x2dIllegalLength o len data => reqWord o len data
  | .decompose order ew mw buffer =>
    ⟨.extractor ew mw, byteOfOrder order :: buffer.len :: littleBytes (Config.byteCount ew mw) buffer.data.toNat⟩
  | .recompose order ew mw f =>
    ⟨.packer ew mw, byteOfOrder order :: littleBytes (Config.byteCount ew mw) (packed f)⟩
  | .classify e m => ⟨.classifier, littleBytes 10 (e ++ m).toNat⟩
  | .normalize e m => ⟨.normalizer, littleBytes 10 (e ++ m).toNat⟩
  | .classZero s => classWord (zeroOperand s)
  | .classDenormal s frac => classWord (denormalOperand s frac)
  | .classPseudoDenormal s frac => classWord (pseudoDenormalOperand s frac)
  | .classPseudoInf s => classWord (pseudoInfOperand s)
  | .classPseudoNanLo s low => classWord (pseudoNanLoOperand s low)
  | .classPseudoNanHi s low => classWord (pseudoNanHiOperand s low)
  | .classInf s => classWord (infOperand s)
  | .classNan s low => classWord (nanOperand s low)
  | .classIndefinite s => classWord (indefiniteOperand s)
  | .classQuietNan s low => classWord (quietNanOperand s low)
  | .classNormal s e m => classWord (x80 s e m)
  | .normalizeUnnormal s e frac => operandWord (unnormalOperand s e frac)
  | .normalizeTooSmall s e frac => operandWord (normalizedOperand s e frac)
  | .normalizeTooLarge s e frac => operandWord (normalizedOperand s e frac)
  | .normalizeOk s e frac => operandWord (normalizedOperand s e frac)

/-! ### Words by the table's bit counts -/

/-- The presented word of `nbits` table bits: 80 bits are an `X80` operand; 81 to 96 bits are a `REQ` (the table gives it 89,
in whole bytes 96); the table gives `PORT` rows no bits, so no other count is a word of the table (log 2). -/
def tableWord (nbits w : Nat) : Word :=
  if 96 < nbits ∨ nbits < 80 then ⟨.unknown nbits, []⟩
  else if 2 ^ nbits ≤ w then ⟨.unknown nbits, []⟩
  else if nbits = 80 then ⟨.x80Operand, littleBytes 10 w⟩
  else ⟨.req, littleBytes 12 w⟩

/-- What the decoder reads from a word numbered as spec/opcode_table.json numbers it; none where it refuses. -/
def decodeTableWord (nbits w : Nat) : Option Instr :=
  match decode (tableWord nbits w) with
  | .ok i => some i
  | .error _ => none

end Sys2Proof
end

