-- ==== Sys2Proof/Machine/State.lean ====
section
/-! DEFINITION. The state: the ports of the five blocks and the wires inside the converter, which is all that stands in for
state in this hardware (10_state.md: no register, no program counter, no memory, nothing held), the requests the caller has
still to present, and the reasons a step can stop. -/

namespace Sys2Proof.Machine

open Sys2Proof

/-! ### Outcomes of an operation at the function level (R6, R14) -/

/-- The error kinds of the document's taxonomy (R161). -/
inductive FaultKind where
  | invalidLength
  | unsupported
  | outOfRange
  deriving DecidableEq, Repr

/-- The eight fault causes (R162). -/
inductive Cause where
  | invalidLength
  | denormal
  | pseudoDenormal
  | unnormal
  | tooSmall
  | tooLarge
  | indefinite
  | quietNan
  deriving DecidableEq, Repr

/-- The outcome of an operation: `Ok(v)` or `Fault(kind, cause)` (R14). A hardware fault is an answer of the hardware, on its
response ports (R173); it is not a stop of the machine. -/
inductive Verdict (α : Type) where
  | ok (v : α)
  | fault (kind : FaultKind) (cause : Cause)
  deriving DecidableEq, Repr

/-- The eleven classes of the document's table (R101). -/
inductive FpClass where
  | zero
  | denormal
  | pseudoDenormal
  | pseudoInf
  | pseudoNanLo
  | pseudoNanHi
  | inf
  | nan
  | indefinite
  | quietNan
  | normal
  deriving DecidableEq, Repr

/-- `Ok` result of `NORMALIZE` (R120). -/
structure Normalized where
  expOut : BitVec 11
  mantOut : BitVec 52
  precisionLost : BitVec 1
  deriving DecidableEq, Repr

/-! ### Ports and wires (R29 to R34) -/

/-- The input ports of `extended_to_double_converter` (R30). -/
structure Request where
  byteOrder : BitVec 1
  inLen : BitVec 8
  /-- Lane `k`, bits `8k+7:8k`, carries buffer byte `k`. -/
  inData : BitVec 80
  deriving DecidableEq, Repr

/-- The output ports of `extended_to_double_converter` (R30). -/
structure Response where
  status : BitVec 2
  cause : BitVec 4
  precisionLost : BitVec 1
  result : BitVec 64
  deriving DecidableEq, Repr

/-- The values on the wires inside the converter (R29, R31 to R35). -/
structure Wires where
  lenErr : BitVec 1
  sign : BitVec 1
  exponent : BitVec 15
  mantissa : BitVec 64
  cls : BitVec 4
  frac63 : BitVec 63
  /-- The one signed, unbounded value of the hardware (R13, R121). -/
  eDouble : Int
  mant52 : BitVec 52
  unnormal : BitVec 1
  tooSmall : BitVec 1
  tooLarge : BitVec 1
  expOut : BitVec 11
  mantOut : BitVec 52
  normLost : BitVec 1
  sOut : BitVec 1
  eOut : BitVec 11
  mOut : BitVec 52
  deriving DecidableEq, Repr

/-- The converter: inputs, inner wires, outputs (R30, R35). -/
structure Converter where
  request : Request
  wires : Wires
  response : Response
  deriving DecidableEq, Repr

/-- An `fp_field_extractor` of its own, with its build-time widths (R31); lane `k` of `data` is bits `8k+7:8k`. -/
structure Extractor where
  ew : Nat
  mw : Nat
  byteOrder : BitVec 1
  len : BitVec 8
  data : BitVec (8 * Config.byteCount ew mw)
  lenErr : BitVec 1
  fields : FloatFields ew mw
  deriving DecidableEq, Repr

/-- An `fp_field_packer` of its own, with its build-time widths (R32); `data` lists the output lanes. -/
structure Packer where
  ew : Nat
  mw : Nat
  byteOrder : BitVec 1
  fields : FloatFields ew mw
  data : List Byte
  deriving DecidableEq, Repr

/-- An `fp_format_classifier` of its own (R33). -/
structure Classifier where
  exponent : BitVec 15
  mantissa : BitVec 64
  cls : BitVec 4
  deriving DecidableEq, Repr

/-- An `fp_rounding_normalizer` (R34). -/
structure Normalizer where
  exponent : BitVec 15
  mantissa : BitVec 64
  unnormal : BitVec 1
  tooSmall : BitVec 1
  tooLarge : BitVec 1
  expOut : BitVec 11
  mantOut : BitVec 52
  precisionLost : BitVec 1
  deriving DecidableEq, Repr

/-- The state of the model: one converter and one instance of each sub-block that a caller can reach by its own ports
(R179: instances share nothing), and the words the caller will present, first one first (the caller's, not the hardware's;
95_test_vectors.md Part 3, log 1). -/
structure State where
  pending : List Word
  converter : Converter
  extractor : Extractor
  packer : Packer
  classifier : Classifier
  normalizer : Normalizer
  deriving DecidableEq, Repr

/-- Why a step stops with a fault. No hardware fault is among them: those are answers (R173). -/
inductive Fault where
  /-- Raised by `step` on a presented word that has not the byte count of its port format.
  The ports have a fixed number of lanes (R30); the model stops where nothing could have been presented: safe. -/
  | wrongSize
  /-- Raised by `step` on a presented word with a bit set for which there is no wire (R30, R92: it "cannot be presented"): safe. -/
  | noSuchWire
  deriving DecidableEq, Repr

/-- Why a step is refused. -/
inductive Refusal where
  /-- An instruction without a meaning; raised by no arm of `exec`: safe. -/
  | notModelled (mnemonic : String)
  /-- Raised by `DECOMPOSE`, `RECOMPOSE` and `step` for a codec block of widths that are not admitted
  (R83: "refused at build time and has no meaning in this spec"): safe. -/
  | widthsNotAdmitted
  /-- Raised by `step` on a word of a bit count for which the table has no format: safe. -/
  | noSuchFormat
  deriving DecidableEq, Repr

/-! ### Reset -/

/-- The response while all inputs are zero: `INVALID_LENGTH` (R192). -/
def Response.reset : Response := ⟨1#2, 1#4, 0#1, 0#64⟩

/-- The wires while all inputs are zero: a length error, zero fields, class code 0, and a normalizer that sees `M[63] = 0`
(R192, R31, R128). -/
def Wires.reset : Wires where
  lenErr := 1#1
  sign := 0#1
  exponent := 0#15
  mantissa := 0#64
  cls := 0#4
  frac63 := 0#63
  eDouble := -15360
  mant52 := 0#52
  unnormal := 1#1
  tooSmall := 0#1
  tooLarge := 0#1
  expOut := 0#11
  mantOut := 0#52
  normLost := 0#1
  sOut := 0#1
  eOut := 0#11
  mOut := 0#52

/-- At reset nothing is held (R36, R191, R192): the outputs follow the inputs.
DESIGN CHOICE (log 3): no word is pending, every input is zero, and the two codec blocks a caller can reach have the widths of
the converter's own. -/
def State.reset : State where
  pending := []
  converter := ⟨⟨0#1, 0#8, 0#80⟩, Wires.reset, Response.reset⟩
  extractor := ⟨15, 64, 0#1, 0#8, 0#80, 1#1, ⟨0#1, 0#15, 0#64⟩⟩
  packer := ⟨11, 52, 0#1, ⟨0#1, 0#11, 0#52⟩, [0#8, 0#8, 0#8, 0#8, 0#8, 0#8, 0#8, 0#8]⟩
  classifier := ⟨0#15, 0#64, 0#4⟩
  normalizer := ⟨0#15, 0#64, 1#1, 0#1, 0#1, 0#11, 0#52, 0#1⟩

end Sys2Proof.Machine
end

