-- ==== Sys2Proof/Machine/Flags.lean ====
section
/-! DEFINITION. The one flag, `precision_lost`, and the codes on the ports `cls`, `status` and `cause`
(R22, R101, R125, R161, R162). -/

namespace Sys2Proof.Machine

open Sys2Proof

/-- `precision_lost` of a successful normalization: some dropped bit is set (R125). -/
def precisionLost (m : BitVec 64) : BitVec 1 := if discarded m = 0#11 then 0#1 else 1#1

/-- Class codes: the row number of the document's table from 0 (R101, decision D8). -/
def classCode : FpClass → BitVec 4
  | .zero => 0#4
  | .denormal => 1#4
  | .pseudoDenormal => 2#4
  | .pseudoInf => 3#4
  | .pseudoNanLo => 4#4
  | .pseudoNanHi => 5#4
  | .inf => 6#4
  | .nan => 7#4
  | .indefinite => 8#4
  | .quietNan => 9#4
  | .normal => 10#4

/-- `status` codes of the error kinds; 0 is OK (R161, decision D5). -/
def statusCode : FaultKind → BitVec 2
  | .invalidLength => 1#2
  | .unsupported => 2#2
  | .outOfRange => 3#2

/-- `cause` codes; 0 is NONE (R162, decision D5). -/
def causeCode : Cause → BitVec 4
  | .invalidLength => 1#4
  | .denormal => 2#4
  | .pseudoDenormal => 3#4
  | .unnormal => 4#4
  | .tooSmall => 5#4
  | .tooLarge => 6#4
  | .indefinite => 7#4
  | .quietNan => 8#4

/-- The kind each cause belongs to (table for R162; R72 and 90_conflicts.md C6 for the last two). -/
def causeKind : Cause → FaultKind
  | .invalidLength => .invalidLength
  | .denormal => .unsupported
  | .pseudoDenormal => .unsupported
  | .unnormal => .unsupported
  | .tooSmall => .outOfRange
  | .tooLarge => .outOfRange
  | .indefinite => .outOfRange
  | .quietNan => .outOfRange

end Sys2Proof.Machine
end

