-- ==== Sys2Proof/Machine/Ops.lean ====
section
/-! DEFINITION. The shared operations: the five operations at the function level (R80, R90, R100, R120, R135), the five blocks
at their ports (R30 to R35), the delivery of a fault (R147, R173, R174), and how a block of the state is driven. -/

namespace Sys2Proof.Machine

open Sys2Proof

/-! ### Outcomes -/

/-- `raise <Kind>(cause)`: the operation ends with `Fault(Kind, cause)`, the kind being the cause's (R14, R162). -/
def raise {α : Type} (c : Cause) : Verdict α := .fault (causeKind c) c

/-- Sequencing: after a fault no later line runs (R14). -/
def Verdict.bind {α β : Type} (x : Verdict α) (f : α → Verdict β) : Verdict β :=
  match x with
  | .ok v => f v
  | .fault k c => .fault k c

/-! ### The operations at the function level -/

/-- `DECOMPOSE(order, EW, MW; B)` (R80): the length check, then the fields of `U(B, order)`. -/
def decompose (order : ByteOrder) (ew mw : Nat) (B : List Byte) : Verdict (FloatFields ew mw) :=
  if B.length ≠ Config.byteCount ew mw then raise .invalidLength
  else .ok (unpack ew mw (unsignedOf order B))

/-- `RECOMPOSE(order, EW, MW; sign, exponent, mantissa)` (R90): it never faults. -/
def recompose (order : ByteOrder) {ew mw : Nat} (f : FloatFields ew mw) : List Byte :=
  bytesOf order (Config.byteCount ew mw) (packed f)

/-- `CLASSIFY(E, M)` (R100). -/
def classify (e : BitVec 15) (m : BitVec 64) : FpClass :=
  if e = 0#15 then
    if integerBit m = 0#1 then
      if m = 0#64 then .zero else .denormal
    else .pseudoDenormal
  else if e = 32767#15 then
    if selector m = 0b00#2 then
      if low62 m = 0#62 then .pseudoInf else .pseudoNanLo
    else if selector m = 0b01#2 then .pseudoNanHi
    else if selector m = 0b10#2 then
      if low62 m = 0#62 then .inf else .nan
    else
      if low62 m = 0#62 then .indefinite else .quietNan
  else .normal

/-- `NORMALIZE(E, M)` (R120), for every `E` (R128): integer bit, too small, too large, in that order (R171). -/
def normalizeOperand (e : BitVec 15) (m : BitVec 64) : Verdict Normalized :=
  if integerBit m = 0#1 then raise .unnormal
  else if eDouble e < 0 then raise .tooSmall
  else if 2047 ≤ eDouble e then raise .tooLarge
  else .ok ⟨BitVec.ofInt 11 (eDouble e), mant52 m, precisionLost m⟩

/-- The `case` of `X2D` (R135, R138 to R145): the fields of the double and the flag, by class. -/
def convertFields (f : FloatFields 15 64) : Verdict (FloatFields 11 52 × BitVec 1) :=
  match classify f.exponent f.mantissa with
  | .zero => .ok (⟨f.sign, 0#11, 0#52⟩, 0#1)
  | .denormal => raise .denormal
  | .pseudoDenormal => raise .pseudoDenormal
  | .pseudoNanLo => .ok (nanFields, 0#1)
  | .pseudoNanHi => .ok (nanFields, 0#1)
  | .nan => .ok (nanFields, 0#1)
  | .pseudoInf => .ok (⟨f.sign, 2047#11, 0#52⟩, 0#1)
  | .inf => .ok (⟨f.sign, 2047#11, 0#52⟩, 0#1)
  | .indefinite => raise .indefinite
  | .quietNan => raise .quietNan
  | .normal =>
    (normalizeOperand f.exponent f.mantissa).bind fun r => .ok (⟨f.sign, r.expOut, r.mantOut⟩, r.precisionLost)

/-- The 64-bit pattern of double fields: packed in little order and read back in little order (R135 step 4, R46). -/
def doublePattern (f : FloatFields 11 52) : BitVec 64 :=
  BitVec.ofNat 64 (unsignedOf .little (recompose .little f))

/-- `X2D(order; B)` at the function level (R135): `Ok(result, precision_lost)` or a fault. -/
def x2d (order : ByteOrder) (B : List Byte) : Verdict (BitVec 64 × BitVec 1) :=
  (decompose order Config.ext.exponentWidth Config.ext.mantissaWidth B).bind fun f =>
    (convertFields f).bind fun r => .ok (doublePattern r.1, r.2)

/-! ### The delivery of a fault, and of a result -/

/-- TAKING A FAULT (R173, R174): the codes of the kind and the cause, `result = 0`, `precision_lost = 0`.
Nothing is saved and control goes nowhere; so there is no return from one either (R175). -/
def Response.ofFault (k : FaultKind) (c : Cause) : Response := ⟨statusCode k, causeCode c, 0#1, 0#64⟩

/-- The outcome of a conversion on its ports (R147). -/
def Response.ofVerdict : Verdict (BitVec 64 × BitVec 1) → Response
  | .ok (r, l) => ⟨0#2, 0#4, l, r⟩
  | .fault k c => Response.ofFault k c

/-! ### The blocks at their ports -/

/-- The outputs of an extractor whose `len` port says `len` (R31): `len_err` and the fields, 0 on a length error. -/
def extractorOutputs (ew mw : Nat) (byteOrder : BitVec 1) (len : Nat) (lanes : List Byte) :
    BitVec 1 × FloatFields ew mw :=
  if len = Config.byteCount ew mw then (0#1, unpack ew mw (unsignedOf (portOrder byteOrder) lanes))
  else (1#1, ⟨0#1, 0, 0⟩)

/-- An extractor with these inputs (R31, R80, R81): the port `len` is compared with `NB` as it stands (log 4). -/
def evalExtractor (ew mw : Nat) (byteOrder : BitVec 1) (len : BitVec 8) (data : BitVec (8 * Config.byteCount ew mw)) :
    Extractor :=
  let out := extractorOutputs ew mw byteOrder len.toNat (littleBytes (Config.byteCount ew mw) data.toNat)
  ⟨ew, mw, byteOrder, len, data, out.1, out.2⟩

/-- A packer with these inputs (R32, R90). -/
def evalPacker (ew mw : Nat) (byteOrder : BitVec 1) (f : FloatFields ew mw) : Packer :=
  ⟨ew, mw, byteOrder, f, recompose (portOrder byteOrder) f⟩

/-- A classifier with these inputs (R33, R100). -/
def evalClassifier (e : BitVec 15) (m : BitVec 64) : Classifier := ⟨e, m, classCode (classify e m)⟩

/-- A fault output of the normalizer: 1 when its cause is the one raised (R34). -/
def faultWire (mine raised : Cause) : BitVec 1 := if raised = mine then 1#1 else 0#1

/-- A normalizer with these inputs (R34, R120): at most one fault output, and the other outputs 0 when there is one. -/
def evalNormalizer (e : BitVec 15) (m : BitVec 64) : Normalizer :=
  match normalizeOperand e m with
  | .ok r => ⟨e, m, 0#1, 0#1, 0#1, r.expOut, r.mantOut, r.precisionLost⟩
  | .fault _ c =>
    ⟨e, m, faultWire .unnormal c, faultWire .tooSmall c, faultWire .tooLarge c, 0#11, 0#52, 0#1⟩

/-- The selection inside the converter (R35): the double's fields and the flag, or a fault, from `len_err`, the class, `sign`
and the normalizer's outputs. -/
def selectOutputs (lenErr : BitVec 1) (c : FpClass) (sign : BitVec 1) (n : Normalizer) :
    Verdict (FloatFields 11 52 × BitVec 1) :=
  if lenErr = 1#1 then raise .invalidLength
  else match c with
    | .zero => .ok (⟨sign, 0#11, 0#52⟩, 0#1)
    | .denormal => raise .denormal
    | .pseudoDenormal => raise .pseudoDenormal
    | .pseudoNanLo => .ok (nanFields, 0#1)
    | .pseudoNanHi => .ok (nanFields, 0#1)
    | .nan => .ok (nanFields, 0#1)
    | .pseudoInf => .ok (⟨sign, 2047#11, 0#52⟩, 0#1)
    | .inf => .ok (⟨sign, 2047#11, 0#52⟩, 0#1)
    | .indefinite => raise .indefinite
    | .quietNan => raise .quietNan
    | .normal =>
      if n.unnormal = 1#1 then raise .unnormal
      else if n.tooSmall = 1#1 then raise .tooSmall
      else if n.tooLarge = 1#1 then raise .tooLarge
      else .ok (⟨sign, n.expOut, n.mantOut⟩, n.precisionLost)

/-- The fields on the packer's inputs inside the converter: the selected ones, all 0 on a fault (R35, R174). -/
def packerInputs : Verdict (FloatFields 11 52 × BitVec 1) → FloatFields 11 52
  | .ok r => r.1
  | .fault _ _ => ⟨0#1, 0#11, 0#52⟩

/-- The converter with these inputs: the wiring of R35. -/
def evalConverter (r : Request) : Converter :=
  let x := extractorOutputs 15 64 r.byteOrder r.inLen.toNat (littleBytes 10 r.inData.toNat)
  let e := x.2.exponent
  let m := x.2.mantissa
  let c := classify e m
  let n := evalNormalizer e m
  let v := selectOutputs x.1 c x.2.sign n
  let f := packerInputs v
  { request := r
    wires :=
      { lenErr := x.1, sign := x.2.sign, exponent := e, mantissa := m, cls := classCode c
        frac63 := frac63 m, eDouble := eDouble e, mant52 := mant52 m
        unnormal := n.unnormal, tooSmall := n.tooSmall, tooLarge := n.tooLarge
        expOut := n.expOut, mantOut := n.mantOut, normLost := n.precisionLost
        sOut := f.sign, eOut := f.exponent, mOut := f.mantissa }
    response := Response.ofVerdict (v.bind fun r => .ok (doublePattern r.1, r.2)) }

/-! ### Views of the ports -/

/-- The request that presents a buffer of any length (R30): ten lanes, of which a shorter buffer fills the first. -/
def presentBuffer (order : ByteOrder) (B : List Byte) : Request :=
  ⟨orderPort order, lenPort B, lanePort 10 B⟩

/-- The vector `REQ` of a request (R63). -/
def Request.bits (r : Request) : BitVec 89 := r.byteOrder ++ r.inLen ++ r.inData

/-- The vector `RSP` of a response (R64). -/
def Response.bits (r : Response) : BitVec 71 := r.status ++ r.cause ++ r.precisionLost ++ r.result

/-- The output buffer: 8 bytes in little order, whatever the request's order, and none on a fault (R41, R46). -/
def Response.outputBuffer (r : Response) : Option (List Byte) :=
  if r.status = 0#2 then some (littleBytes 8 r.result.toNat) else none

/-! ### Driving a block of the state -/

/-- Present a request to the converter (R30, R35). -/
def State.convert (s : State) (r : Request) : State := { s with converter := evalConverter r }

/-- Present an extended operand `N` to the converter: the little-order request whose data is `N` (R63). -/
def State.convertOperand (s : State) (n : BitVec 80) : State := s.convert ⟨0#1, 10#8, n⟩

/-- Drive the ports of an extractor built with these widths (R31). -/
def State.extract (s : State) (order : ByteOrder) (ew mw : Nat) (buffer : BufferPorts ew mw) : State :=
  { s with extractor := evalExtractor ew mw (orderPort order) buffer.len buffer.data }

/-- Present fields to a packer built with these widths (R32). -/
def State.pack (s : State) (order : ByteOrder) (ew mw : Nat) (f : FloatFields ew mw) : State :=
  { s with packer := evalPacker ew mw (orderPort order) f }

/-- Present `(E, M)` to the classifier (R33). -/
def State.classify (s : State) (e : BitVec 15) (m : BitVec 64) : State := { s with classifier := evalClassifier e m }

/-- Present `(E, M)` to the normalizer (R34). -/
def State.normalize (s : State) (e : BitVec 15) (m : BitVec 64) : State := { s with normalizer := evalNormalizer e m }

/-- Every block's outputs as its inputs make them (R36, R190: at every moment). -/
def State.settle (s : State) : State :=
  { s with
    converter := evalConverter s.converter.request
    extractor := evalExtractor s.extractor.ew s.extractor.mw s.extractor.byteOrder s.extractor.len s.extractor.data
    packer := evalPacker s.packer.ew s.packer.mw s.packer.byteOrder s.packer.fields
    classifier := evalClassifier s.classifier.exponent s.classifier.mantissa
    normalizer := evalNormalizer s.normalizer.exponent s.normalizer.mantissa }

/-- What a step answers to a word that stands for no operation. -/
def rejectWord : DecodeError → Host.Outcome State Fault Refusal
  | .wrongSize => .fault .wrongSize
  | .noSuchWire => .fault .noSuchWire
  | .widthsNotAdmitted => .refused .widthsNotAdmitted
  | .noSuchFormat => .refused .noSuchFormat

end Sys2Proof.Machine
end

