-- ==== Sys2Proof/Machine/Classifier.lean ====
section
/-! DEFINITION. Meanings of `CLASSIFY` and of the eleven rows `CLASS.*` (42_format_classifier.md). A row `CLASS.*` presents its
operand to the converter: the class appears on the wire `cls`, the row's outcome on the response (R70, log 2). -/

namespace Sys2Proof.Machine

open Sys2Proof

/-- `CLASSIFY(E, M)` on a classifier's own ports (R100). -/
def execClassify (e : BitVec 15) (m : BitVec 64) (s : State) : Host.Outcome State Fault Refusal :=
  .next (s.classify e m)

/-- `CLASS.ZERO` (R102, outcome R138). -/
def execClassZero (sign : BitVec 1) (s : State) : Host.Outcome State Fault Refusal :=
  .next (s.convertOperand (zeroOperand sign))

/-- `CLASS.DENORMAL` (R103, outcome R139). -/
def execClassDenormal (sign : BitVec 1) (frac : BitVec 63) (s : State) : Host.Outcome State Fault Refusal :=
  .next (s.convertOperand (denormalOperand sign frac))

/-- `CLASS.PSEUDO_DENORMAL` (R104, outcome R140). -/
def execClassPseudoDenormal (sign : BitVec 1) (frac : BitVec 63) (s : State) : Host.Outcome State Fault Refusal :=
  .next (s.convertOperand (pseudoDenormalOperand sign frac))

/-- `CLASS.PSEUDO_INF` (R105, outcome R142). -/
def execClassPseudoInf (sign : BitVec 1) (s : State) : Host.Outcome State Fault Refusal :=
  .next (s.convertOperand (pseudoInfOperand sign))

/-- `CLASS.PSEUDO_NAN_LO` (R106, outcome R141). -/
def execClassPseudoNanLo (sign : BitVec 1) (low : BitVec 62) (s : State) : Host.Outcome State Fault Refusal :=
  .next (s.convertOperand (pseudoNanLoOperand sign low))

/-- `CLASS.PSEUDO_NAN_HI` (R107, outcome R141). -/
def execClassPseudoNanHi (sign : BitVec 1) (low : BitVec 62) (s : State) : Host.Outcome State Fault Refusal :=
  .next (s.convertOperand (pseudoNanHiOperand sign low))

/-- `CLASS.INF` (R108, outcome R142). -/
def execClassInf (sign : BitVec 1) (s : State) : Host.Outcome State Fault Refusal :=
  .next (s.convertOperand (infOperand sign))

/-- `CLASS.NAN` (R109, outcome R141). -/
def execClassNan (sign : BitVec 1) (low : BitVec 62) (s : State) : Host.Outcome State Fault Refusal :=
  .next (s.convertOperand (nanOperand sign low))

/-- `CLASS.INDEFINITE` (R110, outcome R143). -/
def execClassIndefinite (sign : BitVec 1) (s : State) : Host.Outcome State Fault Refusal :=
  .next (s.convertOperand (indefiniteOperand sign))

/-- `CLASS.QUIET_NAN` (R111, outcome R144). -/
def execClassQuietNan (sign : BitVec 1) (low : BitVec 62) (s : State) : Host.Outcome State Fault Refusal :=
  .next (s.convertOperand (quietNanOperand sign low))

/-- `CLASS.NORMAL` (R112, outcome R145: go to `NORMALIZE`). -/
def execClassNormal (sign : BitVec 1) (e : BitVec 15) (m : BitVec 64) (s : State) : Host.Outcome State Fault Refusal :=
  .next (s.convertOperand (x80 sign e m))

end Sys2Proof.Machine
end

