-- ==== Sys2Proof/Machine/Codec.lean ====
section
/-! DEFINITION. Meanings of the codec's operations, `DECOMPOSE` (40_field_extractor.md) and `RECOMPOSE` (41_field_packer.md). -/

namespace Sys2Proof.Machine

open Sys2Proof

/-- `DECOMPOSE` (R80, R81): a wrong length is reported on `len_err`; widths that are not admitted have no meaning (R83). -/
def execDecompose (order : ByteOrder) (ew mw : Nat) (buffer : BufferPorts ew mw) (s : State) :
    Host.Outcome State Fault Refusal :=
  if Config.admitted ew mw then .next (s.extract order ew mw buffer) else .refused .widthsNotAdmitted

/-- `RECOMPOSE` (R90): it never faults; widths that are not admitted have no meaning (R83). -/
def execRecompose (order : ByteOrder) (ew mw : Nat) (f : FloatFields ew mw) (s : State) :
    Host.Outcome State Fault Refusal :=
  if Config.admitted ew mw then .next (s.pack order ew mw f) else .refused .widthsNotAdmitted

end Sys2Proof.Machine
end

