-- ==== Sys2Proof/Machine/Converter.lean ====
section
/-! DEFINITION. Meanings of the rows of format `REQ`: one conversion each (44_converter.md). A fault of the conversion is its
answer, on the response ports (R173). -/

namespace Sys2Proof.Machine

open Sys2Proof

/-- `X2D.LE` (R135): `byte_order = 0`, `in_len = 10`. -/
def execX2dLe (data : BitVec 80) (s : State) : Host.Outcome State Fault Refusal :=
  .next (s.convert ⟨0#1, 10#8, data⟩)

/-- `X2D.BE` (R135): `byte_order = 1`, `in_len = 10`. -/
def execX2dBe (data : BitVec 80) (s : State) : Host.Outcome State Fault Refusal :=
  .next (s.convert ⟨1#1, 10#8, data⟩)

/-- `X2D.ILLEGAL_LENGTH` (R71, R137): the request as it stands; a length other than 10 makes it fault. -/
def execX2dIllegalLength (byteOrder : BitVec 1) (len : BitVec 8) (data : BitVec 80) (s : State) :
    Host.Outcome State Fault Refusal :=
  .next (s.convert ⟨byteOrder, len, data⟩)

end Sys2Proof.Machine
end

