-- ==== Sys2Proof/Machine/Normalize.lean ====
section
/-! DEFINITION. Meanings of `NORMALIZE` and of the four rows `NORMALIZE.*` inside class `NORMAL` (43_rounding_normalizer.md).
A row `NORMALIZE.*` presents its operand to the converter (R145, log 2). -/

namespace Sys2Proof.Machine

open Sys2Proof

/-- `NORMALIZE(E, M)` on a normalizer's own ports, for every `E` (R120, R128). -/
def execNormalize (e : BitVec 15) (m : BitVec 64) (s : State) : Host.Outcome State Fault Refusal :=
  .next (s.normalize e m)

/-- `NORMALIZE.UNNORMAL` (R126). -/
def execNormalizeUnnormal (sign : BitVec 1) (e : BitVec 15) (frac : BitVec 63) (s : State) :
    Host.Outcome State Fault Refusal :=
  .next (s.convertOperand (unnormalOperand sign e frac))

/-- `NORMALIZE.TOO_SMALL` (R122). -/
def execNormalizeTooSmall (sign : BitVec 1) (e : BitVec 15) (frac : BitVec 63) (s : State) :
    Host.Outcome State Fault Refusal :=
  .next (s.convertOperand (normalizedOperand sign e frac))

/-- `NORMALIZE.TOO_LARGE` (R123). -/
def execNormalizeTooLarge (sign : BitVec 1) (e : BitVec 15) (frac : BitVec 63) (s : State) :
    Host.Outcome State Fault Refusal :=
  .next (s.convertOperand (normalizedOperand sign e frac))

/-- `NORMALIZE.OK` (R120, R124, R125). -/
def execNormalizeOk (sign : BitVec 1) (e : BitVec 15) (frac : BitVec 63) (s : State) :
    Host.Outcome State Fault Refusal :=
  .next (s.convertOperand (normalizedOperand sign e frac))

end Sys2Proof.Machine
end

