-- ==== Sys2Proof/Machine/Dispatch.lean ====
section
/-! DEFINITION. One arm per row of spec/opcode_table.json. -/

namespace Sys2Proof.Machine

open Sys2Proof

def exec (i : Instr) (s : State) : Host.Outcome State Fault Refusal :=
  match i with
  | .x2dLe data => Sys2Proof.Machine.execX2dLe data s
  | .x2dBe data => Sys2Proof.Machine.execX2dBe data s
  | .x2dIllegalLength byteOrder len data => Sys2Proof.Machine.execX2dIllegalLength byteOrder len data s
  | .decompose order ew mw buffer => Sys2Proof.Machine.execDecompose order ew mw buffer s
  | .recompose order ew mw fields => Sys2Proof.Machine.execRecompose order ew mw fields s
  | .classify e m => Sys2Proof.Machine.execClassify e m s
  | .normalize e m => Sys2Proof.Machine.execNormalize e m s
  | .classZero sign => Sys2Proof.Machine.execClassZero sign s
  | .classDenormal sign frac => Sys2Proof.Machine.execClassDenormal sign frac s
  | .classPseudoDenormal sign frac => Sys2Proof.Machine.execClassPseudoDenormal sign frac s
  | .classPseudoInf sign => Sys2Proof.Machine.execClassPseudoInf sign s
  | .classPseudoNanLo sign low => Sys2Proof.Machine.execClassPseudoNanLo sign low s
  | .classPseudoNanHi sign low => Sys2Proof.Machine.execClassPseudoNanHi sign low s
  | .classInf sign => Sys2Proof.Machine.execClassInf sign s
  | .classNan sign low => Sys2Proof.Machine.execClassNan sign low s
  | .classIndefinite sign => Sys2Proof.Machine.execClassIndefinite sign s
  | .classQuietNan sign low => Sys2Proof.Machine.execClassQuietNan sign low s
  | .classNormal sign e m => Sys2Proof.Machine.execClassNormal sign e m s
  | .normalizeUnnormal sign e frac => Sys2Proof.Machine.execNormalizeUnnormal sign e frac s
  | .normalizeTooSmall sign e frac => Sys2Proof.Machine.execNormalizeTooSmall sign e frac s
  | .normalizeTooLarge sign e frac => Sys2Proof.Machine.execNormalizeTooLarge sign e frac s
  | .normalizeOk sign e frac => Sys2Proof.Machine.execNormalizeOk sign e frac s

end Sys2Proof.Machine
end

