-- ==== Sys2Proof/Machine/Step.lean ====
section
/-! DEFINITION. One step: the caller presents its next word and the block that word belongs to answers (R17, R21, R193). -/

namespace Sys2Proof.Machine

open Sys2Proof

/-- The next pending word is taken off the caller's list, decoded and run. While nothing is pending the inputs stay as they are
and every output is what its inputs make it (R36, R190; log 1). -/
def step (s : State) : Host.Outcome State Fault Refusal :=
  match s.pending with
  | [] => .next s.settle
  | w :: ws =>
    match decode w with
    | .ok i => exec i { s with pending := ws }
    | .error e => rejectWord e

/-- `s` with a word of the table as the next one the caller presents (log 1, log 2). -/
def State.withFetchWord (s : State) (nbits w : Nat) : State := { s with pending := tableWord nbits w :: s.pending }

end Sys2Proof.Machine
end

