-- ==== Sys2Proof/Safety.lean ====
section
/-! DEFINITION. What claims call a settled state and a safe run. -/

namespace Sys2Proof.Machine

open Sys2Proof

/-- The five blocks a word can be presented to. -/
inductive Block where
  | converter
  | extractor
  | packer
  | classifier
  | normalizer
  deriving DecidableEq, Repr

/-- The block on whose ports an instruction is presented. -/
def Block.of : Instr → Block
  | .decompose _ _ _ _ => .extractor
  | .recompose _ _ _ _ => .packer
  | .classify _ _ => .classifier
  | .normalize _ _ => .normalizer
  | .x2dLe _ => .converter
  | .x2dBe _ => .converter
  | .x2dIllegalLength _ _ _ => .converter
  | .classZero _ => .converter
  | .classDenormal _ _ => .converter
  | .classPseudoDenormal _ _ => .converter
  | .classPseudoInf _ => .converter
  | .classPseudoNanLo _ _ => .converter
  | .classPseudoNanHi _ _ => .converter
  | .classInf _ => .converter
  | .classNan _ _ => .converter
  | .classIndefinite _ => .converter
  | .classQuietNan _ _ => .converter
  | .classNormal _ _ _ => .converter
  | .normalizeUnnormal _ _ _ => .converter
  | .normalizeTooSmall _ _ _ => .converter
  | .normalizeTooLarge _ _ _ => .converter
  | .normalizeOk _ _ _ => .converter

/-- Two states have the same ports, inputs and outputs, on a block. -/
def State.agreeOn (s t : State) : Block → Prop
  | .converter => s.converter = t.converter
  | .extractor => s.extractor = t.extractor
  | .packer => s.packer = t.packer
  | .classifier => s.classifier = t.classifier
  | .normalizer => s.normalizer = t.normalizer

/-- Running `i` at `s` completes, changes the converter's ports alone, and puts on them the little-order request whose data is
`n` (R63), the class code `cls`, and the response `resp`. -/
def convertsOperand (i : Instr) (s : State) (n : BitVec 80) (cls : BitVec 4) (resp : Response) : Prop :=
  ∃ c : Converter, exec i s = .next { s with converter := c } ∧ c.request = ⟨0#1, 10#8, n⟩ ∧ c.wires.cls = cls ∧
    c.response = resp

/-- The wires inside the converter show the operand's fields `f`, what the outputs of a normalizer `n` show of them, and the
fields of the double `result` (R29, R31 to R35). -/
structure Wires.Show (w : Wires) (f : FloatFields 15 64) (n : Normalizer) (result : BitVec 64) : Prop where
  lenErr : w.lenErr = 0#1
  sign : w.sign = f.sign
  exponent : w.exponent = f.exponent
  mantissa : w.mantissa = f.mantissa
  cls : w.cls = classCode (Machine.classify f.exponent f.mantissa)
  frac63 : w.frac63 = f.mantissa.extractLsb' 0 63
  eDouble : w.eDouble = (f.exponent.toNat : Int) - 15360
  mant52 : w.mant52 = f.mantissa.extractLsb' 11 52
  unnormal : w.unnormal = n.unnormal
  tooSmall : w.tooSmall = n.tooSmall
  tooLarge : w.tooLarge = n.tooLarge
  expOut : w.expOut = n.expOut
  mantOut : w.mantOut = n.mantOut
  normLost : w.normLost = n.precisionLost
  packed : w.sOut ++ w.eOut ++ w.mOut = result

/-! ### Numeric values (R16; PRESUMED, log 8: the formulas are general knowledge, used in claims about value only) -/

/-- The magnitude of an extended pattern with `0 < E < 32767`: `2^(E - 16383) * (M / 2^63)` (R16). -/
def extendedMagnitude (e m : Nat) : ℚ := (2 : ℚ) ^ ((e : ℤ) - 16383) * ((m : ℚ) / 2 ^ 63)

/-- The exponent field of a double pattern (R61). -/
def doubleExponent (v : BitVec 64) : BitVec 11 := v.extractLsb' 52 11

/-- The mantissa field of a double pattern (R61). -/
def doubleMantissa (v : BitVec 64) : BitVec 52 := v.extractLsb' 0 52

/-- The magnitude of a double pattern with exponent field below 2047 (R16): normal, or zero and subnormal at exponent field 0. -/
def doubleMagnitude (v : BitVec 64) : ℚ :=
  if doubleExponent v = 0#11 then (2 : ℚ) ^ (-1022 : ℤ) * ((doubleMantissa v).toNat / 2 ^ 52)
  else (2 : ℚ) ^ (((doubleExponent v).toNat : ℤ) - 1023) * (1 + (doubleMantissa v).toNat / 2 ^ 52)

/-- A double pattern is a NaN: exponent field 2047 and a nonzero mantissa field (R141, R16). -/
def isNaN (v : BitVec 64) : Bool := doubleExponent v == 2047#11 && doubleMantissa v != 0#52

/-- The combinational invariant: every output is the function of its block's inputs (R36, R37, R190), and every codec block
is built with admitted widths (R83). -/
structure State.Settled (s : State) : Prop where
  converter : s.converter = evalConverter s.converter.request
  extractor : s.extractor =
    evalExtractor s.extractor.ew s.extractor.mw s.extractor.byteOrder s.extractor.len s.extractor.data
  packer : s.packer = evalPacker s.packer.ew s.packer.mw s.packer.byteOrder s.packer.fields
  classifier : s.classifier = evalClassifier s.classifier.exponent s.classifier.mantissa
  normalizer : s.normalizer = evalNormalizer s.normalizer.exponent s.normalizer.mantissa
  extractorWidths : Config.admitted s.extractor.ew s.extractor.mw = true
  packerWidths : Config.admitted s.packer.ew s.packer.mw = true

/-- Some operation stands for the word. -/
def decodes (w : Word) : Bool :=
  match decode w with
  | .ok _ => true
  | .error _ => false

/-- A safe program: the caller presents only words that stand for an operation. -/
def State.wellPresented (s : State) : Bool := s.pending.all decodes

end Sys2Proof.Machine
end

