-- ==== Sys2Proof/Certificates/Slice0/Obligations.lean ====
section
/-! DEFINITION. The statements for the provers. Each docstring names the rule it formalises; `derived` ones say on which of the
spec's own decisions, or on which log entry, they rest. -/

open Sys2Proof Sys2Proof.Machine

/-! ### Reset, the combinational invariant, the step -/

/-- R192, R36: with inputs that are all zero the outputs are those of a wrong length.
That the inputs are zero and nothing is pending at reset is the model's choice (log 3). -/
def Obligations.ResetPortsReportInvalidLength : Prop :=
  State.reset.pending = [] ∧ State.reset.converter.request = ⟨0#1, 0#8, 0#80⟩ ∧
    State.reset.converter.response.status = 1#2 ∧ State.reset.converter.response.cause = 1#4 ∧
    State.reset.converter.response.result = 0#64 ∧ State.reset.converter.response.precisionLost = 0#1 ∧
    State.reset.extractor.lenErr = 1#1 ∧ State.reset.classifier.cls = 0#4 ∧ State.reset.normalizer.unnormal = 1#1 ∧
    State.reset.packer.data = List.replicate 8 0#8

/-- R36, R190: at the first moment every output is the function of the inputs. -/
def Obligations.ResetIsSettled : Prop := State.reset.Settled

/-- R36, R37, R190: "The outputs at any moment … are the function of the inputs at that moment": every step keeps it. -/
def Obligations.StepKeepsSettled : Prop :=
  ∀ s t : Machine.State, s.Settled → step s = .next t → t.Settled

/-- The step runs the instruction the next presented word stands for, with that word taken off the caller's list (log 1). -/
def Obligations.StepRunsDecodedInstruction : Prop :=
  ∀ (s : Machine.State) (w : Word) (ws : List Word) (i : Instr), s.pending = w :: ws → decode w = .ok i →
    step s = exec i { s with pending := ws }

/-- R36, R190 (decisions D1, D19) with log 1: with nothing to present, a settled machine stays as it is. -/
def Obligations.IdleStepOfSettledChangesNothing : Prop :=
  ∀ s : Machine.State, s.Settled → s.pending = [] → step s = .next s

/-- R83 (decision D13): codec widths that are not admitted have no meaning, whether presented as a word or run directly. -/
def Obligations.UnadmittedWidthsAreRefused : Prop :=
  ∀ (ew mw : Nat), Config.admitted ew mw = false →
    (∀ (s : Machine.State) (B : List Byte) (ws : List Word), s.pending = ⟨.extractor ew mw, B⟩ :: ws →
      step s = .refused .widthsNotAdmitted) ∧
    (∀ (s : Machine.State) (B : List Byte) (ws : List Word), s.pending = ⟨.packer ew mw, B⟩ :: ws →
      step s = .refused .widthsNotAdmitted) ∧
    (∀ (s : Machine.State) (order : ByteOrder) (buffer : BufferPorts ew mw),
      exec (.decompose order ew mw buffer) s = .refused .widthsNotAdmitted) ∧
    (∀ (s : Machine.State) (order : ByteOrder) (f : FloatFields ew mw),
      exec (.recompose order ew mw f) s = .refused .widthsNotAdmitted)

/-- That a word no port can carry stops the step by name is the model's choice (log 2); R30, R31, R32 and R92 (decision D12) give
the ports their lanes and wires. A word of another byte count than its format's is `wrongSize`; a word of the right one with a
bit for which there is no wire, the order byte's included, is `noSuchWire`; a bit count without a format is refused. -/
def Obligations.UnpresentableWordsStop : Prop :=
  ∀ (s : Machine.State) (B : List Byte) (ws : List Word),
    (B.length ≠ 12 → s.pending = ⟨.req, B⟩ :: ws → step s = .fault .wrongSize) ∧
    (B.length = 12 → 2 ^ 89 ≤ littleValue B → s.pending = ⟨.req, B⟩ :: ws → step s = .fault .noSuchWire) ∧
    (∀ F : Format, F = .x80Class ∨ F = .x80Operand ∨ F = .classifier ∨ F = .normalizer → B.length ≠ 10 →
      s.pending = ⟨F, B⟩ :: ws → step s = .fault .wrongSize) ∧
    (∀ F : Format, F = .classifier ∨ F = .normalizer → B.length = 10 → 2 ^ 79 ≤ littleValue B →
      s.pending = ⟨F, B⟩ :: ws → step s = .fault .noSuchWire) ∧
    (∀ ew mw : Nat, Config.admitted ew mw = true →
      (B.length ≠ 2 + (1 + ew + mw + 7) / 8 → s.pending = ⟨.extractor ew mw, B⟩ :: ws → step s = .fault .wrongSize) ∧
      (B.length ≠ 1 + (1 + ew + mw + 7) / 8 → s.pending = ⟨.packer ew mw, B⟩ :: ws → step s = .fault .wrongSize) ∧
      (∀ (order : Byte) (rest : List Byte), B = order :: rest → 2 ≤ order.toNat →
        (B.length = 2 + (1 + ew + mw + 7) / 8 → s.pending = ⟨.extractor ew mw, B⟩ :: ws → step s = .fault .noSuchWire) ∧
        (B.length = 1 + (1 + ew + mw + 7) / 8 → s.pending = ⟨.packer ew mw, B⟩ :: ws → step s = .fault .noSuchWire))) ∧
    (∀ nbits : Nat, s.pending = ⟨.unknown nbits, B⟩ :: ws → step s = .refused .noSuchFormat)

/-! ### Encoding -/

/-- Decode and encode agree: no bit of a well-formed instruction is dropped (R60, R62, R63, R70). -/
def Obligations.DecodeOfEncodeIsIdentity : Prop :=
  ∀ i : Instr, i.wellFormed = true → decode (encode i) = .ok i

/-- The other direction: what a word decodes to is well formed and is presented by the same bytes (R70, R73). -/
def Obligations.EncodeOfDecodeGivesTheBytes : Prop :=
  ∀ (w : Word) (i : Instr), decode w = .ok i → i.wellFormed = true ∧ (encode i).bytes = w.bytes

/-- R73: "the decode of rule R70 is total on all `2^80` operands" and on all `2^89` requests. -/
def Obligations.EveryOperandAndRequestDecodes : Prop :=
  (∀ B : List Byte, B.length = 10 → decodes ⟨.x80Class, B⟩ = true ∧ decodes ⟨.x80Operand, B⟩ = true) ∧
  (∀ B : List Byte, B.length = 12 → littleValue B < 2 ^ 89 → decodes ⟨.req, B⟩ = true)

/-- R70, R113: an operand decodes to a class row exactly when it matches that row's mask, pattern and condition. -/
def Obligations.ClassRowsAreDecodedExactly : Prop :=
  ∀ (n : BitVec 80) (r : X80Row), r ∈ classRows →
    (r.matches n = true ↔ (decodeClass n).mnemonic = r.mnemonic)

/-- R70, R127: the same for the normalizer's rows, inside class `NORMAL` and nowhere else. -/
def Obligations.NormalizerRowsAreDecodedExactly : Prop :=
  ∀ (n : BitVec 80) (r : X80Row), r ∈ normalizeRows →
    (r.matches n = true ↔ (decodeOperand n).mnemonic = r.mnemonic)

/-- Words written out from R63 and R60 (95_test_vectors.md V8, V12, V59, K1, Z5's operand) stand for the rows the spec says. -/
def Obligations.WrittenOutWordsDecode : Prop :=
  decodeTableWord 96 0x00A40048C00000000000000 = some (.x2dLe 0x40048C00000000000000#80) ∧
  decodeTableWord 96 0x10A000000000000008C0440 = some (.x2dBe 0x000000000000008C0440#80) ∧
  decodeTableWord 96 0x00B00000000000000000000 = some (.x2dIllegalLength 0#1 11#8 0#80) ∧
  decodeTableWord 80 0x80000000000000000000 = some (.classZero 1#1) ∧
  decodeTableWord 80 0x7FFFC000000000000001 = some (.classQuietNan 0#1 1#62) ∧
  decodeTableWord 80 0xBC00FFFFFFFFFFFFFFFF = some (.normalizeOk 1#1 15360#15 0x7FFFFFFFFFFFFFFF#63)

/-! ### Buffers -/

/-- R12 ("big" by general knowledge, G1): the integer a buffer spells, as the sums of the rule. -/
def Obligations.BufferSpellsWeightedSum : Prop :=
  ∀ B : List Byte,
    unsignedOf .little B = ∑ i : Fin B.length, (B.get i).toNat * 256 ^ i.val ∧
    unsignedOf .big B = ∑ i : Fin B.length, (B.get i).toNat * 256 ^ (B.length - 1 - i.val)

/-- R12: `Bytes` is the inverse of `U`, in both directions. -/
def Obligations.BytesInvertsBufferValue : Prop :=
  ∀ order : ByteOrder,
    (∀ B : List Byte, bytesOf order B.length (unsignedOf order B) = B) ∧
    (∀ n N : Nat, N < 256 ^ n → (bytesOf order n N).length = n ∧ unsignedOf order (bytesOf order n N) = N)

/-- R42: in little order byte `k` of a ten-byte buffer holds bits `8k+7:8k` of `N`; in big order byte `9 - k` does. -/
def Obligations.ByteOrderPlacesTheBytes : Prop :=
  ∀ (B : List Byte) (k : Nat), B.length = 10 → k < 10 →
    B[k]? = some (BitVec.ofNat 8 (unsignedOf .little B / 256 ^ k)) ∧
    B[9 - k]? = some (BitVec.ofNat 8 (unsignedOf .big B / 256 ^ k))

/-- R45: where each field lies in the input buffer, in both orders. -/
def Obligations.FieldsLieWhereTheTableSays : Prop :=
  ∀ b0 b1 b2 b3 b4 b5 b6 b7 b8 b9 : Byte,
    decompose .little 15 64 [b0, b1, b2, b3, b4, b5, b6, b7, b8, b9] =
      .ok ⟨b9.extractLsb' 7 1, b9.extractLsb' 0 7 ++ b8, b7 ++ b6 ++ b5 ++ b4 ++ b3 ++ b2 ++ b1 ++ b0⟩ ∧
    decompose .big 15 64 [b0, b1, b2, b3, b4, b5, b6, b7, b8, b9] =
      .ok ⟨b0.extractLsb' 7 1, b0.extractLsb' 0 7 ++ b1, b2 ++ b3 ++ b4 ++ b5 ++ b6 ++ b7 ++ b8 ++ b9⟩

/-! ### The codec -/

/-- R80: `DECOMPOSE` faults with `InvalidLength` when the length differs; otherwise the fields are cut out of `N = U(B, order)`. -/
def Obligations.DecomposeCutsFieldsOutOfTheBuffer : Prop :=
  ∀ (order : ByteOrder) (ew mw : Nat) (B : List Byte), Config.admitted ew mw = true →
    (B.length ≠ (1 + ew + mw + 7) / 8 → decompose order ew mw B = .fault .invalidLength .invalidLength) ∧
    (B.length = (1 + ew + mw + 7) / 8 →
      ∃ f : FloatFields ew mw, decompose order ew mw B = .ok f ∧
        f.sign.toNat = unsignedOf order B / 2 ^ (mw + ew) % 2 ∧
        f.exponent.toNat = unsignedOf order B / 2 ^ mw % 2 ^ ew ∧
        f.mantissa.toNat = unsignedOf order B % 2 ^ mw)

/-- R31, R81 (decisions D4, D6, D12): the extractor's ports. The instruction completes whatever `len` and `data` are and changes
the extractor's ports alone: zeros and `len_err = 1` when `len != NB`, the fields and `len_err = 0` when `len = NB`.
The last clause, the outcome of `DECOMPOSE` for every buffer put on the ports, needs `NB < 255`: an 8-bit `len` that saturates
cannot show `NB` and a longer buffer apart from there on (log 4, DEDUCED). -/
def Obligations.ExtractorPortsShowTheOutcome : Prop :=
  ∀ (order : ByteOrder) (ew mw : Nat) (s : Machine.State), Config.admitted ew mw = true →
    (∀ (len : BitVec 8) (data : BitVec (8 * Config.byteCount ew mw)),
      (len.toNat ≠ (1 + ew + mw + 7) / 8 → exec (.decompose order ew mw ⟨len, data⟩) s =
        .next { s with extractor := ⟨ew, mw, orderPort order, len, data, 1#1, ⟨0#1, 0#ew, 0#mw⟩⟩ }) ∧
      (len.toNat = (1 + ew + mw + 7) / 8 → ∀ N : Nat, N = unsignedOf order (littleBytes ((1 + ew + mw + 7) / 8) data.toNat) →
        exec (.decompose order ew mw ⟨len, data⟩) s =
          .next { s with extractor := ⟨ew, mw, orderPort order, len, data, 0#1,
            ⟨BitVec.ofNat 1 (N / 2 ^ (mw + ew)), BitVec.ofNat ew (N / 2 ^ mw), BitVec.ofNat mw N⟩⟩ })) ∧
    ((1 + ew + mw + 7) / 8 < 255 → ∀ B : List Byte, ∃ (lenErr : BitVec 1) (f : FloatFields ew mw),
      exec (decomposeBuffer order ew mw B) s =
        .next { s with extractor :=
          ⟨ew, mw, orderPort order, lenPort B, lanePort (Config.byteCount ew mw) B, lenErr, f⟩ } ∧
      (lenErr = 0#1 → decompose order ew mw B = .ok f) ∧
      (lenErr = 1#1 → decompose order ew mw B = .fault .invalidLength .invalidLength ∧ f = ⟨0#1, 0#ew, 0#mw⟩))

/-- R90: `RECOMPOSE` gives the buffer `Bytes(N, NB, order)` of `N = {sign, exponent, mantissa}`: it has `NB` bytes and spells
`(sign << (EW + MW)) | (exponent << MW) | mantissa`. It never faults: `recompose` has a buffer for every operand. -/
def Obligations.RecomposePacksFieldsIntoBytes : Prop :=
  ∀ (order : ByteOrder) (ew mw : Nat) (f : FloatFields ew mw), Config.admitted ew mw = true →
    (recompose order f).length = (1 + ew + mw + 7) / 8 ∧
    unsignedOf order (recompose order f) =
      f.sign.toNat <<< (ew + mw) ||| f.exponent.toNat <<< mw ||| f.mantissa.toNat

/-- R32, R90 (decision D12): the packer's ports. The instruction completes for every triple and changes the packer's ports alone. -/
def Obligations.PackerPortsShowTheBuffer : Prop :=
  ∀ (order : ByteOrder) (ew mw : Nat) (f : FloatFields ew mw) (s : Machine.State), Config.admitted ew mw = true →
    exec (.recompose order ew mw f) s =
      .next { s with packer := ⟨ew, mw, orderPort order, f,
        bytesOf order ((1 + ew + mw + 7) / 8)
          (f.sign.toNat * 2 ^ (ew + mw) + f.exponent.toNat * 2 ^ mw + f.mantissa.toNat)⟩ }

/-- R85 (a), (b), R94: for every admitted width pair the two codec operations invert each other, in both directions. -/
def Obligations.CodecRoundTrips : Prop :=
  ∀ (order : ByteOrder) (ew mw : Nat), Config.admitted ew mw = true →
    (∀ f : FloatFields ew mw, decompose order ew mw (recompose order f) = .ok f) ∧
    (∀ B : List Byte, B.length = (1 + ew + mw + 7) / 8 →
      ∃ f : FloatFields ew mw, decompose order ew mw B = .ok f ∧ recompose order f = B)

/-- R85 (c), R94 (c): the two byte orders mirror each other. -/
def Obligations.CodecOrderDuality : Prop :=
  ∀ (ew mw : Nat), Config.admitted ew mw = true →
    (∀ B : List Byte, decompose .big ew mw B = decompose .little ew mw B.reverse) ∧
    (∀ f : FloatFields ew mw, recompose .big f = (recompose .little f).reverse)

/-! ### The classifier -/

/-- R100: exactly one of eleven classes, by the conditions of the document's table on `E`, `M[63:62]` and `M[61:0]`. -/
def Obligations.ClassifyFollowsTheTransitionTable : Prop :=
  ∀ (e : BitVec 15) (m : BitVec 64),
    (classify e m = .zero ↔ e.toNat = 0 ∧ m.toNat = 0) ∧
    (classify e m = .denormal ↔ e.toNat = 0 ∧ m.toNat < 2 ^ 63 ∧ m.toNat ≠ 0) ∧
    (classify e m = .pseudoDenormal ↔ e.toNat = 0 ∧ 2 ^ 63 ≤ m.toNat) ∧
    (classify e m = .pseudoInf ↔ e.toNat = 32767 ∧ m.toNat / 2 ^ 62 = 0 ∧ m.toNat % 2 ^ 62 = 0) ∧
    (classify e m = .pseudoNanLo ↔ e.toNat = 32767 ∧ m.toNat / 2 ^ 62 = 0 ∧ m.toNat % 2 ^ 62 ≠ 0) ∧
    (classify e m = .pseudoNanHi ↔ e.toNat = 32767 ∧ m.toNat / 2 ^ 62 = 1) ∧
    (classify e m = .inf ↔ e.toNat = 32767 ∧ m.toNat / 2 ^ 62 = 2 ∧ m.toNat % 2 ^ 62 = 0) ∧
    (classify e m = .nan ↔ e.toNat = 32767 ∧ m.toNat / 2 ^ 62 = 2 ∧ m.toNat % 2 ^ 62 ≠ 0) ∧
    (classify e m = .indefinite ↔ e.toNat = 32767 ∧ m.toNat / 2 ^ 62 = 3 ∧ m.toNat % 2 ^ 62 = 0) ∧
    (classify e m = .quietNan ↔ e.toNat = 32767 ∧ m.toNat / 2 ^ 62 = 3 ∧ m.toNat % 2 ^ 62 ≠ 0) ∧
    (classify e m = .normal ↔ 0 < e.toNat ∧ e.toNat < 32767)

/-- R33, R101 (decisions D8, D12): the codes 0 to 10, in the order of the table, on the port `cls`. The instruction completes and
changes the classifier's ports alone. -/
def Obligations.ClassifierPortShowsTheRowNumber : Prop :=
  ∀ (e : BitVec 15) (m : BitVec 64) (s : Machine.State), ∃ code : BitVec 4,
    exec (.classify e m) s = .next { s with classifier := ⟨e, m, code⟩ } ∧ code.toNat ≤ 10 ∧
    [FpClass.zero, .denormal, .pseudoDenormal, .pseudoInf, .pseudoNanLo, .pseudoNanHi, .inf, .nan, .indefinite, .quietNan,
      .normal][code.toNat]? = some (classify e m)

/-- R113, R127: how many pairs `(E, M)` fall in each class, and how many `NORMAL` pairs have each outcome of the normalizer. -/
def Obligations.ClassesAndOutcomesAreCounted : Prop :=
  Nat.card { m : BitVec 64 // classify 0#15 m = .zero } = 1 ∧
  Nat.card { m : BitVec 64 // classify 0#15 m = .denormal } = 2 ^ 63 - 1 ∧
  Nat.card { m : BitVec 64 // classify 0#15 m = .pseudoDenormal } = 2 ^ 63 ∧
  Nat.card { m : BitVec 64 // classify 32767#15 m = .pseudoInf } = 1 ∧
  Nat.card { m : BitVec 64 // classify 32767#15 m = .pseudoNanLo } = 2 ^ 62 - 1 ∧
  Nat.card { m : BitVec 64 // classify 32767#15 m = .pseudoNanHi } = 2 ^ 62 ∧
  Nat.card { m : BitVec 64 // classify 32767#15 m = .inf } = 1 ∧
  Nat.card { m : BitVec 64 // classify 32767#15 m = .nan } = 2 ^ 62 - 1 ∧
  Nat.card { m : BitVec 64 // classify 32767#15 m = .indefinite } = 1 ∧
  Nat.card { m : BitVec 64 // classify 32767#15 m = .quietNan } = 2 ^ 62 - 1 ∧
  Nat.card { p : BitVec 15 × BitVec 64 // classify p.1 p.2 = .normal } = 32766 * 2 ^ 64 ∧
  Nat.card { p : BitVec 15 × BitVec 64 // classify p.1 p.2 = .normal ∧
    normalizeOperand p.1 p.2 = .fault .unsupported .unnormal } = 32766 * 2 ^ 63 ∧
  Nat.card { p : BitVec 15 × BitVec 64 // classify p.1 p.2 = .normal ∧
    normalizeOperand p.1 p.2 = .fault .outOfRange .tooSmall } = 15359 * 2 ^ 63 ∧
  Nat.card { p : BitVec 15 × BitVec 64 // classify p.1 p.2 = .normal ∧
    normalizeOperand p.1 p.2 = .fault .outOfRange .tooLarge } = 15360 * 2 ^ 63 ∧
  Nat.card { p : BitVec 15 × BitVec 64 // classify p.1 p.2 = .normal ∧
    ∃ r, normalizeOperand p.1 p.2 = .ok r } = 2047 * 2 ^ 63

/-! ### The normalizer -/

/-- R120: the eight steps of `NORMALIZE` in their order, for every `E`; outside class `NORMAL` (`E = 0`, `E = 32767`) that is R128,
the spec's decision D10 (log 7). -/
def Obligations.NormalizeFollowsItsSteps : Prop :=
  ∀ (e : BitVec 15) (m : BitVec 64) (d : Int), d = (e.toNat : Int) - 16383 + 1023 →
    (m.toNat < 2 ^ 63 → normalizeOperand e m = .fault .unsupported .unnormal) ∧
    (2 ^ 63 ≤ m.toNat → d < 0 → normalizeOperand e m = .fault .outOfRange .tooSmall) ∧
    (2 ^ 63 ≤ m.toNat → 2047 ≤ d → normalizeOperand e m = .fault .outOfRange .tooLarge) ∧
    (2 ^ 63 ≤ m.toNat → 0 ≤ d → d < 2047 → ∃ r : Normalized, normalizeOperand e m = .ok r ∧
      (r.expOut.toNat : Int) = d ∧ r.mantOut.toNat = m.toNat % 2 ^ 63 / 2 ^ 11 ∧
      (r.precisionLost = 1#1 ↔ m.toNat % 2 ^ 11 ≠ 0))

/-- R34, R128 (decisions D10, D12): the normalizer's ports, for every `E`. The instruction completes and changes the normalizer's
ports alone; at most one fault output is 1, and then the other outputs are 0. The last clause is its own effect. -/
def Obligations.NormalizerPortsShowTheOutcome : Prop :=
  ∀ (e : BitVec 15) (m : BitVec 64) (s : Machine.State),
    (m.toNat < 2 ^ 63 → exec (.normalize e m) s =
      .next { s with normalizer := ⟨e, m, 1#1, 0#1, 0#1, 0#11, 0#52, 0#1⟩ }) ∧
    (2 ^ 63 ≤ m.toNat → e.toNat ≤ 15359 → exec (.normalize e m) s =
      .next { s with normalizer := ⟨e, m, 0#1, 1#1, 0#1, 0#11, 0#52, 0#1⟩ }) ∧
    (2 ^ 63 ≤ m.toNat → 17407 ≤ e.toNat → exec (.normalize e m) s =
      .next { s with normalizer := ⟨e, m, 0#1, 0#1, 1#1, 0#11, 0#52, 0#1⟩ }) ∧
    (2 ^ 63 ≤ m.toNat → 15360 ≤ e.toNat → e.toNat ≤ 17406 → exec (.normalize e m) s =
      .next { s with normalizer := ⟨e, m, 0#1, 0#1, 0#1, BitVec.ofNat 11 (e.toNat - 15360), m.extractLsb' 11 52,
        BitVec.ofBool (m.extractLsb' 0 11 != 0#11)⟩ })

/-- R123: from `E = 17407` on the exponent is too large, `E = 17406` is accepted, and no `Ok` outcome has `exp_out = 2047`. -/
def Obligations.NormalizeNeverReachesInfinity : Prop :=
  ∀ (e : BitVec 15) (m : BitVec 64), 2 ^ 63 ≤ m.toNat →
    (17407 ≤ e.toNat → normalizeOperand e m = .fault .outOfRange .tooLarge) ∧
    (e.toNat = 17406 → ∃ r : Normalized, normalizeOperand e m = .ok r ∧ r.expOut = 2046#11) ∧
    (∀ r : Normalized, normalizeOperand e m = .ok r → r.expOut ≠ 2047#11)

/-- R124: truncation. `mant_out` is `M[62:11]`, `exp_out` depends on `E` alone and `mant_out` on `M[62:11]` alone, and the
integer bit with `mant_out` is `M` rounded toward zero to a multiple of `2^11`. -/
def Obligations.NormalizeTruncatesTheFraction : Prop :=
  ∀ (e : BitVec 15) (m : BitVec 64) (r : Normalized), normalizeOperand e m = .ok r →
    r.mantOut = m.extractLsb' 11 52 ∧
    (2 ^ 52 + r.mantOut.toNat) * 2 ^ 11 ≤ m.toNat ∧ m.toNat < (2 ^ 52 + r.mantOut.toNat + 1) * 2 ^ 11 ∧
    (∀ (m' : BitVec 64) (r' : Normalized), normalizeOperand e m' = .ok r' → r'.expOut = r.expOut) ∧
    (∀ (e' : BitVec 15) (m' : BitVec 64) (r' : Normalized), m'.extractLsb' 11 52 = m.extractLsb' 11 52 →
      normalizeOperand e' m' = .ok r' → r'.mantOut = r.mantOut)

/-- R125: the flag is 1 if and only if the outcome is `Ok` and `M[10:0] != 0`, on the ports of the normalizer; and it does not
change `exp_out` or `mant_out`, nor the fault outputs: a mantissa that differs in `M[10:0]` only has the same ones. -/
def Obligations.PrecisionLossIffDroppedBits : Prop :=
  ∀ (e : BitVec 15) (m m' : BitVec 64) (s : Machine.State), m'.extractLsb' 11 53 = m.extractLsb' 11 53 →
    ∃ n n' : Normalizer, exec (.normalize e m) s = .next { s with normalizer := n } ∧
      exec (.normalize e m') s = .next { s with normalizer := n' } ∧
      (n.precisionLost = 1#1 ↔ (∃ r : Normalized, normalizeOperand e m = .ok r) ∧ m.extractLsb' 0 11 ≠ 0#11) ∧
      n'.expOut = n.expOut ∧ n'.mantOut = n.mantOut ∧
      n'.unnormal = n.unnormal ∧ n'.tooSmall = n.tooSmall ∧ n'.tooLarge = n.tooLarge

/-! ### The rows of the operand decode, one outcome each -/

/-- R138 (pattern of zero by general knowledge, G3): `CLASS.ZERO` gives a zero of the operand's sign, and loses nothing. -/
def Obligations.ZeroRowGivesSignedZero : Prop :=
  ∀ (sign : BitVec 1) (s : Machine.State),
    convertsOperand (.classZero sign) s (sign ++ 0#79) 0#4 ⟨0#2, 0#4, 0#1, sign ++ 0#63⟩

/-- R139, R140 on the ports (codes by D5, zeros by D6): the rows of the denormals and pseudo-denormals answer with a fault. -/
def Obligations.DenormalRowsAreUnsupported : Prop :=
  ∀ (sign : BitVec 1) (frac : BitVec 63) (s : Machine.State),
    (frac ≠ 0#63 → convertsOperand (.classDenormal sign frac) s (sign ++ 0#16 ++ frac) 1#4 ⟨2#2, 2#4, 0#1, 0#64⟩) ∧
    convertsOperand (.classPseudoDenormal sign frac) s (sign ++ 1#16 ++ frac) 2#4 ⟨2#2, 3#4, 0#1, 0#64⟩

/-- R142 (pattern of infinity by general knowledge, G3): both infinities give the infinity of the operand's sign. -/
def Obligations.InfinityRowsGiveSignedInfinity : Prop :=
  ∀ (sign : BitVec 1) (s : Machine.State),
    convertsOperand (.classPseudoInf sign) s (sign ++ 0x7FFF0000000000000000#79) 3#4
      ⟨0#2, 0#4, 0#1, sign ++ 2047#11 ++ 0#52⟩ ∧
    convertsOperand (.classInf sign) s (sign ++ 0x7FFF8000000000000000#79) 6#4
      ⟨0#2, 0#4, 0#1, sign ++ 2047#11 ++ 0#52⟩

/-- R141: the three NaN rows give one and the same NaN, whatever sign and payload, with no precision loss.
Which NaN it is, is decision D7 and not said here (log 5). -/
def Obligations.NanRowsGiveOneNan : Prop :=
  ∃ v : BitVec 64, isNaN v = true ∧ ∀ (sign : BitVec 1) (low : BitVec 62) (s : Machine.State),
    (low ≠ 0#62 → convertsOperand (.classPseudoNanLo sign low) s (sign ++ 0x1FFFC#17 ++ low) 4#4
      ⟨0#2, 0#4, 0#1, v⟩) ∧
    convertsOperand (.classPseudoNanHi sign low) s (sign ++ 0x1FFFD#17 ++ low) 5#4 ⟨0#2, 0#4, 0#1, v⟩ ∧
    (low ≠ 0#62 → convertsOperand (.classNan sign low) s (sign ++ 0x1FFFE#17 ++ low) 7#4
      ⟨0#2, 0#4, 0#1, v⟩)

/-- R143, R144 on the ports (codes by D5, zeros by D6): the indefinite and the quiet NaNs answer with a fault, either sign. -/
def Obligations.IndefiniteAndQuietNanRowsAreOutOfRange : Prop :=
  ∀ (sign : BitVec 1) (low : BitVec 62) (s : Machine.State),
    convertsOperand (.classIndefinite sign) s (sign ++ 0x7FFFC000000000000000#79) 8#4 ⟨3#2, 7#4, 0#1, 0#64⟩ ∧
    (low ≠ 0#62 → convertsOperand (.classQuietNan sign low) s (sign ++ 0x1FFFF#17 ++ low) 9#4 ⟨3#2, 8#4, 0#1, 0#64⟩)

/-- R145 on the ports (R147): a row of class `NORMAL` answers with the outcome of `NORMALIZE(E, M)`, the sign attached. -/
def Obligations.NormalRowIsNormalizeWithSign : Prop :=
  ∀ (sign : BitVec 1) (e : BitVec 15) (m : BitVec 64) (s : Machine.State), 0 < e.toNat → e.toNat < 32767 →
    convertsOperand (.classNormal sign e m) s (sign ++ e ++ m) 10#4
      (Response.ofVerdict (match normalizeOperand e m with
        | .ok r => .ok (sign ++ r.expOut ++ r.mantOut, r.precisionLost)
        | .fault k c => .fault k c))

/-- R122, R123, R126 on the ports (codes by D5, zeros by D6, priority by D9): an unnormal is refused whatever its exponent, and
a normalized operand with an exponent out of the double's range is refused. -/
def Obligations.NormalizerFaultRowsFault : Prop :=
  ∀ (sign : BitVec 1) (e : BitVec 15) (frac : BitVec 63) (s : Machine.State),
    (0 < e.toNat → e.toNat < 32767 →
      convertsOperand (.normalizeUnnormal sign e frac) s (sign ++ e ++ 0#1 ++ frac) 10#4 ⟨2#2, 4#4, 0#1, 0#64⟩) ∧
    (1 ≤ e.toNat → e.toNat ≤ 15359 →
      convertsOperand (.normalizeTooSmall sign e frac) s (sign ++ e ++ 1#1 ++ frac) 10#4 ⟨3#2, 5#4, 0#1, 0#64⟩) ∧
    (17407 ≤ e.toNat → e.toNat ≤ 32766 →
      convertsOperand (.normalizeTooLarge sign e frac) s (sign ++ e ++ 1#1 ++ frac) 10#4 ⟨3#2, 6#4, 0#1, 0#64⟩)

/-- R68: the double's fields out of the extended's on the normal path, `E = 15360` (decision D15) and `E = 17406` included. -/
def Obligations.NormalizedRowGivesTheTruncatedDouble : Prop :=
  ∀ (sign : BitVec 1) (e : BitVec 15) (frac : BitVec 63) (s : Machine.State), 15360 ≤ e.toNat → e.toNat ≤ 17406 →
    ∃ (v : BitVec 64) (lost : BitVec 1),
      convertsOperand (.normalizeOk sign e frac) s (sign ++ e ++ 1#1 ++ frac) 10#4 ⟨0#2, 0#4, lost, v⟩ ∧
      v.toNat = sign.toNat * 2 ^ 63 + (e.toNat - 15360) * 2 ^ 52 + frac.toNat / 2 ^ 11 ∧
      (lost = 1#1 ↔ frac.toNat % 2 ^ 11 ≠ 0)

/-! ### The converter -/

/-- R137: "If `len(B) != 10` the outcome is `Fault(InvalidLength, INVALID_LENGTH)`", whatever `B` holds, for either byte order. -/
def Obligations.WrongLengthFaultsBeforeAnythingElse : Prop :=
  ∀ (order : ByteOrder) (B : List Byte), B.length ≠ 10 → x2d order B = .fault .invalidLength .invalidLength

/-- R139, R140: denormals and pseudo-denormals of either sign, in either byte order, are unsupported: no value is produced. -/
def Obligations.DenormalOperandsAreUnsupported : Prop :=
  ∀ (order : ByteOrder) (B : List Byte) (f : FloatFields 15 64), decompose order 15 64 B = .ok f → f.exponent = 0#15 →
    (f.mantissa.extractLsb' 63 1 = 0#1 → f.mantissa ≠ 0#64 → x2d order B = .fault .unsupported .denormal) ∧
    (f.mantissa.extractLsb' 63 1 = 1#1 → x2d order B = .fault .unsupported .pseudoDenormal)

/-- R143, R144: the indefinite and the quiet NaNs of either sign, in either byte order, are out of range: no NaN is substituted. -/
def Obligations.IndefiniteAndQuietNanOperandsAreOutOfRange : Prop :=
  ∀ (order : ByteOrder) (B : List Byte) (f : FloatFields 15 64), decompose order 15 64 B = .ok f → f.exponent = 32767#15 →
    (f.mantissa = 0xC000000000000000#64 → x2d order B = .fault .outOfRange .indefinite) ∧
    (f.mantissa.extractLsb' 62 2 = 3#2 → f.mantissa.extractLsb' 0 62 ≠ 0#62 → x2d order B = .fault .outOfRange .quietNan)

/-- R145: the outcome of a normal operand is that of `NORMALIZE(E, M)` with the operand's sign attached. -/
def Obligations.NormalOperandsAreNormalizedWithSign : Prop :=
  ∀ (order : ByteOrder) (B : List Byte) (f : FloatFields 15 64), decompose order 15 64 B = .ok f →
    0 < f.exponent.toNat → f.exponent.toNat < 32767 →
    (∀ (k : FaultKind) (c : Cause), normalizeOperand f.exponent f.mantissa = .fault k c → x2d order B = .fault k c) ∧
    (∀ r : Normalized, normalizeOperand f.exponent f.mantissa = .ok r →
      x2d order B = .ok (f.sign ++ r.expOut ++ r.mantOut, r.precisionLost))

/-- R71, R137: a request of another length faults with `INVALID_LENGTH`, whatever its order and data are. -/
def Obligations.IllegalLengthFaultsWhateverTheData : Prop :=
  ∀ (byteOrder : BitVec 1) (len : BitVec 8) (data : BitVec 80) (s : Machine.State), len ≠ 10#8 →
    ∃ c : Converter, exec (.x2dIllegalLength byteOrder len data) s = .next { s with converter := c } ∧
      c.request = ⟨byteOrder, len, data⟩ ∧
      c.response = ⟨1#2, 1#4, 0#1, 0#64⟩

/-- R135, R29, R35: a request of ten bytes gets on its ports the outcome of `X2D` of its ten lanes, in either order; only the
converter's ports change. The wires inside show the operand's fields and what the blocks make of them, and the double's fields
on the packer's inputs are `result`, zeros on a fault included (log 6). -/
def Obligations.RequestsOfTenBytesAreConverted : Prop :=
  ∀ (data : BitVec 80) (s : Machine.State),
    (∃ (c : Converter) (f : FloatFields 15 64) (n : Normalizer),
      exec (.x2dLe data) s = .next { s with converter := c } ∧ c.request = ⟨0#1, 10#8, data⟩ ∧
      c.response = Response.ofVerdict (x2d .little (littleBytes 10 data.toNat)) ∧
      decompose .little 15 64 (littleBytes 10 data.toNat) = .ok f ∧
      exec (.normalize f.exponent f.mantissa) s = .next { s with normalizer := n } ∧
      c.wires.Show f n c.response.result) ∧
    (∃ (c : Converter) (f : FloatFields 15 64) (n : Normalizer),
      exec (.x2dBe data) s = .next { s with converter := c } ∧ c.request = ⟨1#1, 10#8, data⟩ ∧
      c.response = Response.ofVerdict (x2d .big (littleBytes 10 data.toNat)) ∧
      decompose .big 15 64 (littleBytes 10 data.toNat) = .ok f ∧
      exec (.normalize f.exponent f.mantissa) s = .next { s with normalizer := n } ∧
      c.wires.Show f n c.response.result)

/-- R6, R30, R35: the port level refines the function level: for every buffer of every length, presented on the ports
(length saturated at 255, ten lanes), the wired blocks answer what the function `X2D` answers. -/
def Obligations.PortsRefineTheFunction : Prop :=
  ∀ (order : ByteOrder) (B : List Byte),
    (evalConverter (presentBuffer order B)).response = Response.ofVerdict (x2d order B)

/-- R148: the summary table, row by row, over the integer `N` that the ten bytes spell (codes by D5, zeros by D6, the NaN
pattern by D7, log 5; the priority by D9; `E = 15360` accepted by D15, log 7). -/
def Obligations.SummaryTableHolds : Prop :=
  ∀ (order : ByteOrder) (B : List Byte) (sign E M : Nat) (r : Response),
    r = (evalConverter (presentBuffer order B)).response →
    sign = unsignedOf order B / 2 ^ 79 → E = unsignedOf order B / 2 ^ 64 % 2 ^ 15 → M = unsignedOf order B % 2 ^ 64 →
    (B.length ≠ 10 → r = ⟨1#2, 1#4, 0#1, 0#64⟩) ∧
    (B.length = 10 →
      (E = 0 → M = 0 → r = ⟨0#2, 0#4, 0#1, BitVec.ofNat 64 (sign * 2 ^ 63)⟩) ∧
      (E = 0 → 0 < M → M < 2 ^ 63 → r = ⟨2#2, 2#4, 0#1, 0#64⟩) ∧
      (E = 0 → 2 ^ 63 ≤ M → r = ⟨2#2, 3#4, 0#1, 0#64⟩) ∧
      (E = 32767 → M = 0 → r = ⟨0#2, 0#4, 0#1, BitVec.ofNat 64 (sign * 2 ^ 63 + 2047 * 2 ^ 52)⟩) ∧
      (E = 32767 → 0 < M → M < 2 ^ 63 → r = ⟨0#2, 0#4, 0#1, 0x7FF8000000000000#64⟩) ∧
      (E = 32767 → M = 2 ^ 63 → r = ⟨0#2, 0#4, 0#1, BitVec.ofNat 64 (sign * 2 ^ 63 + 2047 * 2 ^ 52)⟩) ∧
      (E = 32767 → 2 ^ 63 < M → M < 3 * 2 ^ 62 → r = ⟨0#2, 0#4, 0#1, 0x7FF8000000000000#64⟩) ∧
      (E = 32767 → M = 3 * 2 ^ 62 → r = ⟨3#2, 7#4, 0#1, 0#64⟩) ∧
      (E = 32767 → 3 * 2 ^ 62 < M → r = ⟨3#2, 8#4, 0#1, 0#64⟩) ∧
      (0 < E → E < 32767 → M < 2 ^ 63 → r = ⟨2#2, 4#4, 0#1, 0#64⟩) ∧
      (1 ≤ E → E ≤ 15359 → 2 ^ 63 ≤ M → r = ⟨3#2, 5#4, 0#1, 0#64⟩) ∧
      (17407 ≤ E → E ≤ 32766 → 2 ^ 63 ≤ M → r = ⟨3#2, 6#4, 0#1, 0#64⟩) ∧
      (15360 ≤ E → E ≤ 17406 → 2 ^ 63 ≤ M →
        r = ⟨0#2, 0#4, BitVec.ofBool (M % 2 ^ 11 != 0),
          BitVec.ofNat 64 (sign * 2 ^ 63 + (E - 15360) * 2 ^ 52 + M % 2 ^ 63 / 2 ^ 11)⟩))

/-- R44, R149 (b): a buffer read in big order is the reversed buffer read in little order, faults included; so too on the ports. -/
def Obligations.ConversionOrderDuality : Prop :=
  (∀ B : List Byte, x2d .big B = x2d .little B.reverse) ∧
  (∀ (data : BitVec 80) (s : Machine.State), ∃ t u : Machine.State, exec (.x2dBe data) s = .next t ∧
    exec (.x2dLe (BitVec.ofNat 80 (bigValueFrom 0 (littleBytes 10 data.toNat)))) s = .next u ∧
    t.converter.response = u.converter.response)

/-- R149 (c), R114: flipping the operand's sign never changes the class, whether there is a fault, which, or the flag; it changes
`result[63]` alone, and not even that for a NaN. -/
def Obligations.SignSymmetry : Prop :=
  ∀ (e : BitVec 15) (m : BitVec 64) (s : Machine.State), ∃ p n : Converter,
    exec (.x2dLe (0#1 ++ e ++ m)) s = .next { s with converter := p } ∧
    exec (.x2dLe (1#1 ++ e ++ m)) s = .next { s with converter := n } ∧
    p.wires.cls = n.wires.cls ∧ p.response.status = n.response.status ∧ p.response.cause = n.response.cause ∧
    p.response.precisionLost = n.response.precisionLost ∧
    (p.response.status = 0#2 → isNaN p.response.result = true → n.response.result = p.response.result) ∧
    (p.response.status = 0#2 → isNaN p.response.result = false →
      n.response.result = p.response.result ^^^ 0x8000000000000000#64)

/-- R149 (d), (e): exponent field 2047 comes from the infinity and NaN classes only; then the mantissa field is 0 exactly for the
two infinity classes (`M = 0`, `M = 2^63`), and `0x8000000000000` exactly for the three NaN classes (the pattern is D7, log 5),
which alone give a NaN. Exponent field 0 comes from zeros and from `E = 15360` (decision D15) only. -/
def Obligations.ResultExponentFieldsAreAccountedFor : Prop :=
  ∀ (order : ByteOrder) (B : List Byte) (v : BitVec 64) (lost : BitVec 1) (f : FloatFields 15 64),
    decompose order 15 64 B = .ok f → x2d order B = .ok (v, lost) →
    (doubleExponent v = 2047#11 ↔ f.exponent = 32767#15) ∧
    (doubleExponent v = 2047#11 →
      (doubleMantissa v = 0#52 ↔ f.mantissa = 0#64 ∨ f.mantissa = 0x8000000000000000#64) ∧
      (doubleMantissa v = 0x8000000000000#52 ↔ classify f.exponent f.mantissa = .pseudoNanLo ∨
        classify f.exponent f.mantissa = .pseudoNanHi ∨ classify f.exponent f.mantissa = .nan)) ∧
    (isNaN v = true ↔ classify f.exponent f.mantissa = .pseudoNanLo ∨ classify f.exponent f.mantissa = .pseudoNanHi ∨
      classify f.exponent f.mantissa = .nan) ∧
    (doubleExponent v = 0#11 ↔ (f.exponent = 0#15 ∧ f.mantissa = 0#64) ∨ f.exponent = 15360#15)

/-- R146, R22, R149 (f): at the top level the flag is 1 exactly on the successful normal path with a dropped bit set, and then
`status` is OK. -/
def Obligations.TopLevelPrecisionLoss : Prop :=
  ∀ (order : ByteOrder) (B : List Byte), (evalConverter (presentBuffer order B)).response.precisionLost = 1#1 ↔
    ∃ f : FloatFields 15 64, decompose order 15 64 B = .ok f ∧ classify f.exponent f.mantissa = .normal ∧
      (∃ r : Normalized, normalizeOperand f.exponent f.mantissa = .ok r) ∧ f.mantissa.extractLsb' 0 11 ≠ 0#11 ∧
      (evalConverter (presentBuffer order B)).response.status = 0#2

/-- R147, R161, R162, R174 (decisions D5, D6): the response of any request carries one of nine pairs of codes, and on a fault
everything below them is 0 and there is no output buffer. -/
def Obligations.ResponsesCarryOneFaultAndZeros : Prop :=
  ∀ (q : Request) (r : Response), r = (evalConverter q).response →
    (r.status.toNat, r.cause.toNat) ∈ [(0, 0), (1, 1), (2, 2), (2, 3), (2, 4), (3, 5), (3, 6), (3, 7), (3, 8)] ∧
    (r.status ≠ 0#2 → r.bits.extractLsb' 0 65 = 0#65 ∧ r.outputBuffer = none) ∧
    (r.status = 0#2 → ∃ B, r.outputBuffer = some B ∧ B.length = 8)

/-- R46, R41 (decision D14): output byte `k` is `N[8k+7:8k]` of the double pattern, whatever the request's byte order. -/
def Obligations.OutputBytesAreLittleEndian : Prop :=
  ∀ (order : ByteOrder) (B : List Byte) (f : FloatFields 11 52) (lost : BitVec 1) (g : FloatFields 15 64) (k : Nat),
    decompose order 15 64 B = .ok g → convertFields g = .ok (f, lost) → k < 8 →
    ∃ out, (evalConverter (presentBuffer order B)).response.outputBuffer = some out ∧
      out[k]? = some ((f.sign ++ f.exponent ++ f.mantissa).extractLsb' (8 * k) 8)

/-! ### Numeric meaning (R16's formulas: PRESUMED, log 8) -/

/-- R129: for `15361 <= E <= 17406` the result is the operand rounded toward zero in magnitude, below it by less than one unit in
the last place, and equal to it exactly when nothing was lost. -/
def Obligations.ResultIsOperandRoundedTowardZero : Prop :=
  ∀ (sign : BitVec 1) (e : BitVec 15) (frac : BitVec 63) (s : Machine.State), 15361 ≤ e.toNat → e.toNat ≤ 17406 →
    ∃ c : Converter, exec (.normalizeOk sign e frac) s = .next { s with converter := c } ∧
      c.response.status = 0#2 ∧
      doubleMagnitude c.response.result ≤ extendedMagnitude e.toNat (2 ^ 63 + frac.toNat) ∧
      extendedMagnitude e.toNat (2 ^ 63 + frac.toNat) - doubleMagnitude c.response.result <
        (2 : ℚ) ^ ((e.toNat : ℤ) - 16383 - 52) ∧
      (doubleMagnitude c.response.result = extendedMagnitude e.toNat (2 ^ 63 + frac.toNat) ↔
        c.response.precisionLost = 0#1)

/-- R129: the result is "the largest double not above `v` in magnitude": it is OK, finite and not above the operand, and no finite
double that is not above the operand is above it. -/
def Obligations.ResultIsLargestDoubleNotAbove : Prop :=
  ∀ (sign : BitVec 1) (e : BitVec 15) (frac : BitVec 63) (s : Machine.State), 15361 ≤ e.toNat → e.toNat ≤ 17406 →
    ∃ c : Converter, exec (.normalizeOk sign e frac) s = .next { s with converter := c } ∧ c.response.status = 0#2 ∧
      doubleExponent c.response.result ≠ 2047#11 ∧
      doubleMagnitude c.response.result ≤ extendedMagnitude e.toNat (2 ^ 63 + frac.toNat) ∧
      ∀ d : BitVec 64, doubleExponent d ≠ 2047#11 → doubleMagnitude d ≤ extendedMagnitude e.toNat (2 ^ 63 + frac.toNat) →
        doubleMagnitude d ≤ doubleMagnitude c.response.result

/-- R195 (decision D15): with `E = 15360` the result has exponent field 0 and never the operand's magnitude: it reads as less. -/
def Obligations.Exponent15360ReadsAsLess : Prop :=
  ∀ (sign : BitVec 1) (frac : BitVec 63) (s : Machine.State),
    ∃ c : Converter, exec (.normalizeOk sign 15360#15 frac) s = .next { s with converter := c } ∧
      c.response.status = 0#2 ∧ doubleExponent c.response.result = 0#11 ∧
      doubleMagnitude c.response.result < extendedMagnitude 15360 (2 ^ 63 + frac.toNat)

/-! ### Statelessness -/

/-- R37: "The same request gives the same response every time it is presented": two machines in any states whatever that are
presented the same word have the same ports on the block it belongs to. -/
def Obligations.SameRequestSameResponse : Prop :=
  ∀ (w : Word) (i : Instr) (s t : Machine.State) (ws vs : List Word), decode w = .ok i →
    s.pending = w :: ws → t.pending = w :: vs →
    ∃ s' t' : Machine.State, step s = .next s' ∧ step t = .next t' ∧ s'.agreeOn t' (Block.of i)

/-- R179, R28 (decision D20): blocks share nothing: an instruction leaves every other block and the caller's list unchanged. -/
def Obligations.BlocksShareNothing : Prop :=
  ∀ (i : Instr) (s t : Machine.State), exec i s = .next t →
    t.pending = s.pending ∧ ∀ b : Block, b ≠ Block.of i → t.agreeOn s b

/-- R175, R25: "A fault leaves no trace": after any sequence of requests, faulting or not, from any state, a request gets the
ports it gets as the first one after reset. -/
def Obligations.EarlierRequestsLeaveNoTrace : Prop :=
  ∀ (s : Machine.State) (ws : List Word) (w : Word) (i : Instr), s.pending = ws ++ [w] → ws.all decodes = true →
    decode w = .ok i →
    ∃ t u : Machine.State, core.run (ws.length + 1) s = .next t ∧
      step { State.reset with pending := [w] } = .next u ∧ t.pending = [] ∧ t.agreeOn u (Block.of i)

/-- R73, R173: a caller that presents only words that stand for operations is never stopped, for any number of steps: a fault of
the hardware is an answer. -/
def Obligations.WellPresentedProgramsNeverStop : Prop :=
  ∀ (k : Nat) (s : Machine.State), s.wellPresented = true →
    ∃ t : Machine.State, core.run k s = .next t ∧ t.wellPresented = true
end

