-- ==== Sys2Proof/Laws/Operands.lean ====
section
/-! SUPPORT. Small lemmas of the buffer functions and of the operand slices. -/

namespace Sys2Proof.Machine

open Sys2Proof

@[simp] theorem littleBytes_length (n N : Nat) : (littleBytes n N).length = n := by
  induction n generalizing N with
  | zero => rfl
  | succ n ih => simp [littleBytes, ih]

@[simp] theorem bigBytes_length (n N : Nat) : (bigBytes n N).length = n := by
  induction n with
  | zero => rfl
  | succ n ih => simp [bigBytes, ih]

/-- A buffer spells less than `256` to its length. -/
theorem littleValue_lt (B : List Byte) : littleValue B < 256 ^ B.length := by
  induction B with
  | nil => simp [littleValue]
  | cons b bs ih =>
    have hb := b.isLt
    simp only [littleValue, List.length_cons, pow_succ]
    omega

/-- The bytes after the first `k` weigh `256 ^ k` as much. -/
theorem littleValue_append (A B : List Byte) : littleValue (A ++ B) = littleValue A + 256 ^ A.length * littleValue B := by
  induction A with
  | nil => simp [littleValue]
  | cons a as ih => simp only [List.cons_append, littleValue, ih, List.length_cons, pow_succ]; ring

/-- The bytes of `N` spell `N` modulo what so many bytes can hold. -/
theorem littleValue_littleBytes_mod (n N : Nat) : littleValue (littleBytes n N) = N % 256 ^ n := by
  induction n generalizing N with
  | zero => simp [littleBytes, littleValue, Nat.mod_one]
  | succ n ih =>
    have step : N % (256 * 256 ^ n) = N % 256 + 256 * (N / 256 % 256 ^ n) := Nat.mod_mul
    rw [pow_succ, Nat.mul_comm, step]
    simp only [littleBytes, littleValue, ih]
    rfl

@[simp] theorem orderPort_portOrder (p : BitVec 1) : orderPort (portOrder p) = p := by
  revert p; decide

@[simp] theorem portOrder_orderPort (o : ByteOrder) : portOrder (orderPort o) = o := by
  cases o <;> rfl

/-- The length port below its saturation (R81). -/
theorem lenPort_toNat (B : List Byte) : (lenPort B).toNat = min B.length 255 := by
  rw [lenPort, BitVec.toNat_ofNat]
  omega

/-- A port shows a length below 255 exactly when the buffer has it. -/
theorem lenPort_toNat_eq_iff (B : List Byte) {n : Nat} (h : n < 255) : (lenPort B).toNat = n ↔ B.length = n := by
  rw [lenPort_toNat]
  omega

/-- The lanes of a buffer that fills them spell what the buffer spells in little order. -/
theorem lanePort_toNat {n : Nat} (B : List Byte) (h : B.length = n) : (lanePort n B).toNat = littleValue B := by
  subst h
  have hlt : littleValue B < 2 ^ (8 * B.length) := by
    rw [pow_mul]
    exact littleValue_lt B
  rw [lanePort, List.take_length, BitVec.toNat_ofNat, Nat.mod_eq_of_lt hlt]

/-! ### Slices and concatenations as numbers -/

/-- A concatenation as a number: the high part times `2 ^ b`, plus the low part. -/
theorem append_toNat {a b : Nat} (x : BitVec a) (y : BitVec b) : (x ++ y).toNat = x.toNat * 2 ^ b + y.toNat := by
  rw [BitVec.toNat_append, Nat.shiftLeft_eq, Nat.mul_comm, Nat.two_pow_add_eq_or_of_lt y.isLt]

theorem x80_toNat (s : BitVec 1) (e : BitVec 15) (m : BitVec 64) :
    (x80 s e m).toNat = (s.toNat * 2 ^ 15 + e.toNat) * 2 ^ 64 + m.toNat :=
  (append_toNat (s ++ e) m).trans (congrArg (fun k => k * 2 ^ 64 + m.toNat) (append_toNat s e))

theorem bitFraction_toNat (b : BitVec 1) (f : BitVec 63) : (b ++ f : BitVec 64).toNat = b.toNat * 2 ^ 63 + f.toNat :=
  append_toNat b f

theorem selectorLow_toNat (t : BitVec 2) (l : BitVec 62) : (t ++ l : BitVec 64).toNat = t.toNat * 2 ^ 62 + l.toNat :=
  append_toNat t l

theorem x80Sign_toNat (n : BitVec 80) : (x80Sign n).toNat = n.toNat / 2 ^ 79 % 2 := by
  rw [x80Sign, BitVec.extractLsb'_toNat, Nat.shiftRight_eq_div_pow]

theorem x80Exponent_toNat (n : BitVec 80) : (x80Exponent n).toNat = n.toNat / 2 ^ 64 % 2 ^ 15 := by
  rw [x80Exponent, BitVec.extractLsb'_toNat, Nat.shiftRight_eq_div_pow]

theorem x80Mantissa_toNat (n : BitVec 80) : (x80Mantissa n).toNat = n.toNat % 2 ^ 64 := by
  rw [x80Mantissa, BitVec.extractLsb'_toNat, Nat.shiftRight_zero]

theorem integerBit_toNat (m : BitVec 64) : (integerBit m).toNat = m.toNat / 2 ^ 63 := by
  have := m.isLt
  rw [integerBit, BitVec.extractLsb'_toNat, Nat.shiftRight_eq_div_pow]
  omega

theorem selector_toNat (m : BitVec 64) : (selector m).toNat = m.toNat / 2 ^ 62 := by
  have := m.isLt
  rw [selector, BitVec.extractLsb'_toNat, Nat.shiftRight_eq_div_pow]
  omega

theorem low62_toNat (m : BitVec 64) : (low62 m).toNat = m.toNat % 2 ^ 62 := by
  rw [low62, BitVec.extractLsb'_toNat, Nat.shiftRight_zero]

theorem frac63_toNat (m : BitVec 64) : (frac63 m).toNat = m.toNat % 2 ^ 63 := by
  rw [frac63, BitVec.extractLsb'_toNat, Nat.shiftRight_zero]

theorem discarded_toNat (m : BitVec 64) : (discarded m).toNat = m.toNat % 2 ^ 11 := by
  rw [discarded, BitVec.extractLsb'_toNat, Nat.shiftRight_zero]

theorem mant52_toNat (m : BitVec 64) : (mant52 m).toNat = m.toNat % 2 ^ 63 / 2 ^ 11 := by
  have h : Config.shift = 11 := rfl
  have hlt : m.toNat % 2 ^ 63 / 2 ^ 11 < 2 ^ 52 := by omega
  rw [mant52, h, BitVec.toNat_setWidth, BitVec.toNat_ushiftRight, frac63_toNat, Nat.shiftRight_eq_div_pow]
  exact Nat.mod_eq_of_lt hlt

/-- `e_double` is `E - 15360` (R121). -/
theorem eDouble_eq (e : BitVec 15) : eDouble e = (e.toNat : Int) - 15360 := by
  have h1 : (Config.ext.bias : Int) = 16383 := rfl
  have h2 : (Config.dbl.bias : Int) = 1023 := rfl
  rw [eDouble, h1, h2]
  omega

/-! ### The fields of an assembled operand -/

@[simp] theorem x80Sign_x80 (s : BitVec 1) (e : BitVec 15) (m : BitVec 64) : x80Sign (x80 s e m) = s := by
  apply BitVec.eq_of_toNat_eq
  have := s.isLt; have := e.isLt; have := m.isLt
  rw [x80Sign_toNat, x80_toNat]; omega

@[simp] theorem x80Exponent_x80 (s : BitVec 1) (e : BitVec 15) (m : BitVec 64) : x80Exponent (x80 s e m) = e := by
  apply BitVec.eq_of_toNat_eq
  have := s.isLt; have := e.isLt; have := m.isLt
  rw [x80Exponent_toNat, x80_toNat]; omega

@[simp] theorem x80Mantissa_x80 (s : BitVec 1) (e : BitVec 15) (m : BitVec 64) : x80Mantissa (x80 s e m) = m := by
  apply BitVec.eq_of_toNat_eq
  have := s.isLt; have := e.isLt; have := m.isLt
  rw [x80Mantissa_toNat, x80_toNat]; omega

@[simp] theorem integerBit_append (b : BitVec 1) (f : BitVec 63) : integerBit (b ++ f) = b := by
  apply BitVec.eq_of_toNat_eq
  have := b.isLt; have := f.isLt
  rw [integerBit_toNat, bitFraction_toNat]; omega

@[simp] theorem frac63_append (b : BitVec 1) (f : BitVec 63) : frac63 (b ++ f) = f := by
  apply BitVec.eq_of_toNat_eq
  have := b.isLt; have := f.isLt
  rw [frac63_toNat, bitFraction_toNat]; omega

@[simp] theorem selector_append (t : BitVec 2) (l : BitVec 62) : selector (t ++ l) = t := by
  apply BitVec.eq_of_toNat_eq
  have := t.isLt; have := l.isLt
  rw [selector_toNat, selectorLow_toNat]; omega

@[simp] theorem low62_append (t : BitVec 2) (l : BitVec 62) : low62 (t ++ l) = l := by
  apply BitVec.eq_of_toNat_eq
  have := t.isLt; have := l.isLt
  rw [low62_toNat, selectorLow_toNat]; omega

/-! ### Codec fields as numbers -/

/-- The fields cut out of `N`, as numbers (R66). -/
theorem unpack_toNat (ew mw N : Nat) : (unpack ew mw N).sign.toNat = N / 2 ^ (mw + ew) % 2 ∧
    (unpack ew mw N).exponent.toNat = N / 2 ^ mw % 2 ^ ew ∧ (unpack ew mw N).mantissa.toNat = N % 2 ^ mw := by
  simp [unpack, Nat.shiftRight_eq_div_pow]

/-- Fields are equal when they are equal as numbers. -/
theorem fields_eq_of_toNat {ew mw : Nat} {f g : FloatFields ew mw} (hs : f.sign.toNat = g.sign.toNat)
    (he : f.exponent.toNat = g.exponent.toNat) (hm : f.mantissa.toNat = g.mantissa.toNat) : f = g := by
  obtain ⟨fs, fe, fm⟩ := f
  obtain ⟨gs, ge, gm⟩ := g
  cases BitVec.eq_of_toNat_eq hs
  cases BitVec.eq_of_toNat_eq he
  cases BitVec.eq_of_toNat_eq hm
  rfl

/-- The shifts and ors of R67 add, because the fields occupy disjoint bits. -/
theorem packed_eq {ew mw : Nat} (f : FloatFields ew mw) :
    packed f = f.sign.toNat * 2 ^ (ew + mw) + f.exponent.toNat * 2 ^ mw + f.mantissa.toNat := by
  unfold packed
  have h2 := f.exponent.isLt
  have h3 := f.mantissa.isLt
  have low : f.exponent.toNat * 2 ^ mw ||| f.mantissa.toNat = f.exponent.toNat * 2 ^ mw + f.mantissa.toNat := by
    rw [Nat.mul_comm, Nat.two_pow_add_eq_or_of_lt h3]
  have hlt : f.exponent.toNat * 2 ^ mw + f.mantissa.toNat < 2 ^ (ew + mw) := by
    rw [pow_add]
    nlinarith
  rw [Nat.shiftLeft_eq, Nat.shiftLeft_eq, Nat.or_assoc, low, Nat.mul_comm, ← Nat.two_pow_add_eq_or_of_lt hlt, Nat.mul_comm]
  ring

/-- An admitted format fills its bytes exactly (R83). -/
theorem byteCount_of_admitted {ew mw : Nat} (h : Config.admitted ew mw = true) :
    256 ^ Config.byteCount ew mw = 2 ^ (1 + ew + mw) := by
  simp only [Config.admitted, Bool.and_eq_true, decide_eq_true_eq, beq_iff_eq] at h
  have hb : 8 * Config.byteCount ew mw = 1 + ew + mw := by unfold Config.byteCount; omega
  rw [← hb, pow_mul]
  norm_num

end Sys2Proof.Machine
end

