-- ==== Sys2Proof/Laws/State.lean ====
section
/-! SUPPORT. One lemma per field of `State` per way of driving a block, each true by `rfl`, so that no proof unfolds a record
update. -/

namespace Sys2Proof.Machine

open Sys2Proof

section convert
variable (s : State) (r : Request) (n : BitVec 80)
@[simp] theorem State.convert_pending : (s.convert r).pending = s.pending := rfl
@[simp] theorem State.convert_converter : (s.convert r).converter = evalConverter r := rfl
@[simp] theorem State.convert_extractor : (s.convert r).extractor = s.extractor := rfl
@[simp] theorem State.convert_packer : (s.convert r).packer = s.packer := rfl
@[simp] theorem State.convert_classifier : (s.convert r).classifier = s.classifier := rfl
@[simp] theorem State.convert_normalizer : (s.convert r).normalizer = s.normalizer := rfl
theorem State.convertOperand_eq_convert : s.convertOperand n = s.convert ⟨0#1, 10#8, n⟩ := rfl
@[simp] theorem State.convertOperand_pending : (s.convertOperand n).pending = s.pending := rfl
@[simp] theorem State.convertOperand_converter : (s.convertOperand n).converter = evalConverter ⟨0#1, 10#8, n⟩ := rfl
@[simp] theorem State.convertOperand_extractor : (s.convertOperand n).extractor = s.extractor := rfl
@[simp] theorem State.convertOperand_packer : (s.convertOperand n).packer = s.packer := rfl
@[simp] theorem State.convertOperand_classifier : (s.convertOperand n).classifier = s.classifier := rfl
@[simp] theorem State.convertOperand_normalizer : (s.convertOperand n).normalizer = s.normalizer := rfl
end convert

section extract
variable (s : State) (o : ByteOrder) (ew mw : Nat) (b : BufferPorts ew mw)
@[simp] theorem State.extract_pending : (s.extract o ew mw b).pending = s.pending := rfl
@[simp] theorem State.extract_converter : (s.extract o ew mw b).converter = s.converter := rfl
@[simp] theorem State.extract_extractor :
    (s.extract o ew mw b).extractor = evalExtractor ew mw (orderPort o) b.len b.data := rfl
@[simp] theorem State.extract_packer : (s.extract o ew mw b).packer = s.packer := rfl
@[simp] theorem State.extract_classifier : (s.extract o ew mw b).classifier = s.classifier := rfl
@[simp] theorem State.extract_normalizer : (s.extract o ew mw b).normalizer = s.normalizer := rfl
end extract

section pack
variable (s : State) (o : ByteOrder) (ew mw : Nat) (f : FloatFields ew mw)
@[simp] theorem State.pack_pending : (s.pack o ew mw f).pending = s.pending := rfl
@[simp] theorem State.pack_converter : (s.pack o ew mw f).converter = s.converter := rfl
@[simp] theorem State.pack_extractor : (s.pack o ew mw f).extractor = s.extractor := rfl
@[simp] theorem State.pack_packer : (s.pack o ew mw f).packer = evalPacker ew mw (orderPort o) f := rfl
@[simp] theorem State.pack_classifier : (s.pack o ew mw f).classifier = s.classifier := rfl
@[simp] theorem State.pack_normalizer : (s.pack o ew mw f).normalizer = s.normalizer := rfl
end pack

section classifyAndNormalize
variable (s : State) (e : BitVec 15) (m : BitVec 64)
@[simp] theorem State.classify_pending : (s.classify e m).pending = s.pending := rfl
@[simp] theorem State.classify_converter : (s.classify e m).converter = s.converter := rfl
@[simp] theorem State.classify_extractor : (s.classify e m).extractor = s.extractor := rfl
@[simp] theorem State.classify_packer : (s.classify e m).packer = s.packer := rfl
@[simp] theorem State.classify_classifier : (s.classify e m).classifier = evalClassifier e m := rfl
@[simp] theorem State.classify_normalizer : (s.classify e m).normalizer = s.normalizer := rfl
@[simp] theorem State.normalize_pending : (s.normalize e m).pending = s.pending := rfl
@[simp] theorem State.normalize_converter : (s.normalize e m).converter = s.converter := rfl
@[simp] theorem State.normalize_extractor : (s.normalize e m).extractor = s.extractor := rfl
@[simp] theorem State.normalize_packer : (s.normalize e m).packer = s.packer := rfl
@[simp] theorem State.normalize_classifier : (s.normalize e m).classifier = s.classifier := rfl
@[simp] theorem State.normalize_normalizer : (s.normalize e m).normalizer = evalNormalizer e m := rfl
end classifyAndNormalize

@[simp] theorem State.settle_pending (s : State) : s.settle.pending = s.pending := rfl

/-! ### What the blocks keep: their inputs are the ones presented -/

@[simp] theorem evalConverter_request (r : Request) : (evalConverter r).request = r := rfl
section evalExtractor
variable (ew mw : Nat) (o : BitVec 1) (len : BitVec 8) (data : BitVec (8 * Config.byteCount ew mw))
@[simp] theorem evalExtractor_ew : (evalExtractor ew mw o len data).ew = ew := rfl
@[simp] theorem evalExtractor_mw : (evalExtractor ew mw o len data).mw = mw := rfl
@[simp] theorem evalExtractor_byteOrder : (evalExtractor ew mw o len data).byteOrder = o := rfl
@[simp] theorem evalExtractor_len : (evalExtractor ew mw o len data).len = len := rfl
@[simp] theorem evalExtractor_data : (evalExtractor ew mw o len data).data = data := rfl
end evalExtractor
@[simp] theorem evalPacker_ew (ew mw : Nat) (o : BitVec 1) (f : FloatFields ew mw) : (evalPacker ew mw o f).ew = ew := rfl
@[simp] theorem evalPacker_mw (ew mw : Nat) (o : BitVec 1) (f : FloatFields ew mw) : (evalPacker ew mw o f).mw = mw := rfl
@[simp] theorem evalPacker_byteOrder (ew mw : Nat) (o : BitVec 1) (f : FloatFields ew mw) :
    (evalPacker ew mw o f).byteOrder = o := rfl
@[simp] theorem evalClassifier_exponent (e : BitVec 15) (m : BitVec 64) : (evalClassifier e m).exponent = e := rfl
@[simp] theorem evalClassifier_mantissa (e : BitVec 15) (m : BitVec 64) : (evalClassifier e m).mantissa = m := rfl
@[simp] theorem evalNormalizer_exponent (e : BitVec 15) (m : BitVec 64) : (evalNormalizer e m).exponent = e := by
  unfold evalNormalizer; split <;> rfl
@[simp] theorem evalNormalizer_mantissa (e : BitVec 15) (m : BitVec 64) : (evalNormalizer e m).mantissa = m := by
  unfold evalNormalizer; split <;> rfl

end Sys2Proof.Machine
end

