-- ==== Sys2Proof/Laws/Ops.lean ====
section
/-! SUPPORT. For the shared operations, `exec` and `step`: once, everything each can do, for proofs to cite instead of unfolding. -/

namespace Sys2Proof.Machine

open Sys2Proof

/-! ### Outcomes -/

@[simp] theorem Verdict.bind_ok {α β : Type} (v : α) (f : α → Verdict β) : (Verdict.ok v).bind f = f v := rfl

@[simp] theorem Verdict.bind_fault {α β : Type} (k : FaultKind) (c : Cause) (f : α → Verdict β) :
    (Verdict.fault k c).bind f = .fault k c := rfl

/-- A sequence that succeeds succeeded at its first part. -/
theorem Verdict.bind_eq_ok {α β : Type} {x : Verdict α} {f : α → Verdict β} {b : β} (h : x.bind f = .ok b) :
    ∃ a, x = .ok a ∧ f a = .ok b := by
  cases x with
  | ok a => exact ⟨a, rfl, h⟩
  | fault k c => cases h

@[simp] theorem raise_ne_ok {α : Type} (c : Cause) (v : α) : (raise c : Verdict α) ≠ .ok v := by
  intro h; cases h

/-! ### The operations -/

/-- What `decompose` can answer: the fields, and then the length is right. -/
theorem decompose_eq_ok {order : ByteOrder} {ew mw : Nat} {B : List Byte} {f : FloatFields ew mw}
    (h : decompose order ew mw B = .ok f) :
    B.length = Config.byteCount ew mw ∧ f = unpack ew mw (unsignedOf order B) := by
  unfold decompose at h
  split at h
  · cases h
  · next hl => cases h; exact ⟨not_not.mp hl, rfl⟩

/-- What `normalize` can answer when it succeeds. -/
theorem normalizeOperand_eq_ok {e : BitVec 15} {m : BitVec 64} {r : Normalized} (h : normalizeOperand e m = .ok r) :
    integerBit m = 1#1 ∧ 15360 ≤ e.toNat ∧ e.toNat ≤ 17406 ∧
      r = ⟨BitVec.ofInt 11 (eDouble e), mant52 m, precisionLost m⟩ := by
  have hb := integerBit_toNat m
  have hm := m.isLt
  have he := eDouble_eq e
  unfold normalizeOperand at h
  split at h
  · cases h
  · next h0 =>
    split at h
    · cases h
    · next h1 =>
      split at h
      · cases h
      · next h2 =>
        cases h
        refine ⟨?_, by omega, by omega, rfl⟩
        generalize integerBit m = b at h0
        revert b; decide

/-- Outside the range of the double, and for an unnormal, `normalize` faults. -/
theorem normalizeOperand_eq_fault {e : BitVec 15} {m : BitVec 64} {k : FaultKind} {c : Cause}
    (h : normalizeOperand e m = .fault k c) :
    k = causeKind c ∧ (c = .unnormal ∨ c = .tooSmall ∨ c = .tooLarge) := by
  unfold normalizeOperand at h
  split at h
  · cases h; exact ⟨rfl, .inl rfl⟩
  · split at h
    · cases h; exact ⟨rfl, .inr (.inl rfl)⟩
    · split at h
      · cases h; exact ⟨rfl, .inr (.inr rfl)⟩
      · cases h

/-- With a right length the extractor's outputs are the fields and no error. -/
theorem extractorOutputs_of_length {ew mw : Nat} (o : BitVec 1) {len : Nat} (lanes : List Byte)
    (h : len = Config.byteCount ew mw) :
    extractorOutputs ew mw o len lanes = (0#1, unpack ew mw (unsignedOf (portOrder o) lanes)) :=
  if_pos h

/-- With a wrong length they are an error and zeros. -/
theorem extractorOutputs_of_length_ne {ew mw : Nat} (o : BitVec 1) {len : Nat} (lanes : List Byte)
    (h : len ≠ Config.byteCount ew mw) : extractorOutputs ew mw o len lanes = (1#1, ⟨0#1, 0, 0⟩) :=
  if_neg h

/-- The selection inside the converter with no length error, when the class and the normalizer belong to the same operand, is the
`case` of `X2D` (R35, R135). -/
theorem selectOutputs_eq_convertFields (sign : BitVec 1) (e : BitVec 15) (m : BitVec 64) :
    selectOutputs 0#1 (classify e m) sign (evalNormalizer e m) = convertFields ⟨sign, e, m⟩ := by
  have onNormal : ∀ n : Normalizer, selectOutputs 0#1 .normal sign n =
      if n.unnormal = 1#1 then raise .unnormal
      else if n.tooSmall = 1#1 then raise .tooSmall
      else if n.tooLarge = 1#1 then raise .tooLarge
      else .ok (⟨sign, n.expOut, n.mantOut⟩, n.precisionLost) := fun _ => rfl
  unfold convertFields
  dsimp only
  generalize classify e m = c
  cases c with
  | normal =>
    rw [onNormal]
    unfold evalNormalizer
    cases h : normalizeOperand e m with
    | ok r => rfl
    | fault k c =>
      obtain ⟨rfl, hc⟩ := normalizeOperand_eq_fault h
      rcases hc with rfl | rfl | rfl <;> rfl
  | _ => rfl

/-- The double's bit pattern is `{s, e, m}` (R61, R135 step 5). -/
theorem doublePattern_toNat (f : FloatFields 11 52) :
    (doublePattern f).toNat = f.sign.toNat * 2 ^ 63 + f.exponent.toNat * 2 ^ 52 + f.mantissa.toNat := by
  have h := packed_eq f
  have hs := f.sign.isLt
  have he := f.exponent.isLt
  have hm := f.mantissa.isLt
  have hb : Config.byteCount 11 52 = 8 := rfl
  simp only [doublePattern, recompose, bytesOf, unsignedOf, littleValue_littleBytes_mod, BitVec.toNat_ofNat, hb]
  omega

/-- What a word's number is when its port accepts it. -/
theorem portBits_eq_ok {size bits : Nat} {B : List Byte} {N : Nat} (h : portBits size bits B = .ok N) :
    B.length = size ∧ N = littleValue B ∧ N < 2 ^ bits := by
  unfold portBits at h
  split_ifs at h with h1 h2
  cases h
  exact ⟨not_not.mp h1, rfl, h2⟩

/-- A port accepts the bytes of every number its wires can carry. -/
theorem portBits_littleBytes {size bits N : Nat} (h : N < 2 ^ bits) (hs : N < 256 ^ size) :
    portBits size bits (littleBytes size N) = .ok N := by
  unfold portBits
  rw [if_neg (by simp), littleValue_littleBytes_mod, Nat.mod_eq_of_lt hs, if_pos h]

/-! ### What an instruction and a step can do -/

/-- `exec` answers a next state only by driving one block, the instruction's own. -/
theorem exec_eq_next {i : Instr} {s t : State} (h : exec i s = .next t) :
    (∃ r, Block.of i = .converter ∧ t = s.convert r) ∨
    (∃ o ew mw b, i = .decompose o ew mw b ∧ Config.admitted ew mw = true ∧ t = s.extract o ew mw b) ∨
    (∃ o ew mw f, i = .recompose o ew mw f ∧ Config.admitted ew mw = true ∧ t = s.pack o ew mw f) ∨
    (∃ e m, i = .classify e m ∧ t = s.classify e m) ∨
    (∃ e m, i = .normalize e m ∧ t = s.normalize e m) := by
  cases i with
  | decompose o ew mw b =>
    simp only [exec, execDecompose] at h
    split at h
    · next ha => cases h; exact .inr (.inl ⟨o, ew, mw, b, rfl, ha, rfl⟩)
    · cases h
  | recompose o ew mw f =>
    simp only [exec, execRecompose] at h
    split at h
    · next ha => cases h; exact .inr (.inr (.inl ⟨o, ew, mw, f, rfl, ha, rfl⟩))
    · cases h
  | classify e m => cases h; exact .inr (.inr (.inr (.inl ⟨e, m, rfl, rfl⟩)))
  | normalize e m => cases h; exact .inr (.inr (.inr (.inr ⟨e, m, rfl, rfl⟩)))
  | x2dLe data => cases h; exact .inl ⟨_, rfl, rfl⟩
  | x2dBe data => cases h; exact .inl ⟨_, rfl, rfl⟩
  | x2dIllegalLength o l data => cases h; exact .inl ⟨_, rfl, rfl⟩
  | classZero s => cases h; exact .inl ⟨_, rfl, rfl⟩
  | classDenormal s f => cases h; exact .inl ⟨_, rfl, rfl⟩
  | classPseudoDenormal s f => cases h; exact .inl ⟨_, rfl, rfl⟩
  | classPseudoInf s => cases h; exact .inl ⟨_, rfl, rfl⟩
  | classPseudoNanLo s l => cases h; exact .inl ⟨_, rfl, rfl⟩
  | classPseudoNanHi s l => cases h; exact .inl ⟨_, rfl, rfl⟩
  | classInf s => cases h; exact .inl ⟨_, rfl, rfl⟩
  | classNan s l => cases h; exact .inl ⟨_, rfl, rfl⟩
  | classIndefinite s => cases h; exact .inl ⟨_, rfl, rfl⟩
  | classQuietNan s l => cases h; exact .inl ⟨_, rfl, rfl⟩
  | classNormal s e m => cases h; exact .inl ⟨_, rfl, rfl⟩
  | normalizeUnnormal s e f => cases h; exact .inl ⟨_, rfl, rfl⟩
  | normalizeTooSmall s e f => cases h; exact .inl ⟨_, rfl, rfl⟩
  | normalizeTooLarge s e f => cases h; exact .inl ⟨_, rfl, rfl⟩
  | normalizeOk s e f => cases h; exact .inl ⟨_, rfl, rfl⟩

/-- A step answers a next state either idly or by running the decoded instruction. -/
theorem step_eq_next {s t : State} (h : step s = .next t) :
    (s.pending = [] ∧ t = s.settle) ∨
    (∃ w ws i, s.pending = w :: ws ∧ decode w = .ok i ∧ exec i { s with pending := ws } = .next t) := by
  unfold step at h
  split at h
  · next hp => cases h; exact .inl ⟨hp, rfl⟩
  · next w ws hp =>
    split at h
    · next i hd => exact .inr ⟨w, ws, i, hp, hd, h⟩
    · next e hd => cases e <;> cases h

end Sys2Proof.Machine
end

