-- ==== Sys2Proof/Laws/PerInstr.lean ====
section
/-! SUPPORT. One law per instruction as syntax: an encoded instruction fills its port format's lanes exactly (R60, R62, R63). -/

namespace Sys2Proof.Laws.EncodeFits

open Sys2Proof Sys2Proof.Machine

/-- How many bytes a word of a format has; none for a bit count without a format. -/
def size : Format → Option Nat
  | .req => some 12
  | .x80Class => some 10
  | .x80Operand => some 10
  | .extractor ew mw => some (2 + Config.byteCount ew mw)
  | .packer ew mw => some (1 + Config.byteCount ew mw)
  | .classifier => some 10
  | .normalizer => some 10
  | .unknown _ => none

/-- The encoded word has its format's byte count. -/
def Statement (i : Instr) : Prop := ∀ n : Nat, size (encode i).format = some n → (encode i).bytes.length = n

theorem of_bytes (f : Format) (n N : Nat) (h : size f = some n) : ∀ k, size f = some k → (littleBytes n N).length = k := by
  intro k hk
  rw [h] at hk
  cases hk
  exact littleBytes_length n N

theorem x2dLe (data : BitVec 80) : Statement (.x2dLe data) := of_bytes .req 12 _ rfl
theorem x2dBe (data : BitVec 80) : Statement (.x2dBe data) := of_bytes .req 12 _ rfl
theorem x2dIllegalLength (o : BitVec 1) (len : BitVec 8) (data : BitVec 80) : Statement (.x2dIllegalLength o len data) :=
  of_bytes .req 12 _ rfl
theorem decompose (order : ByteOrder) (ew mw : Nat) (buffer : BufferPorts ew mw) :
    Statement (.decompose order ew mw buffer) := by
  intro n h
  cases h
  simp only [encode, List.length_cons, littleBytes_length]
  omega
theorem recompose (order : ByteOrder) (ew mw : Nat) (f : FloatFields ew mw) : Statement (.recompose order ew mw f) := by
  intro n h
  cases h
  simp [encode, Nat.add_comm]
theorem classify (e : BitVec 15) (m : BitVec 64) : Statement (.classify e m) := of_bytes .classifier 10 _ rfl
theorem normalize (e : BitVec 15) (m : BitVec 64) : Statement (.normalize e m) := of_bytes .normalizer 10 _ rfl
theorem classZero (s : BitVec 1) : Statement (.classZero s) := of_bytes .x80Class 10 _ rfl
theorem classDenormal (s : BitVec 1) (f : BitVec 63) : Statement (.classDenormal s f) := of_bytes .x80Class 10 _ rfl
theorem classPseudoDenormal (s : BitVec 1) (f : BitVec 63) : Statement (.classPseudoDenormal s f) :=
  of_bytes .x80Class 10 _ rfl
theorem classPseudoInf (s : BitVec 1) : Statement (.classPseudoInf s) := of_bytes .x80Class 10 _ rfl
theorem classPseudoNanLo (s : BitVec 1) (l : BitVec 62) : Statement (.classPseudoNanLo s l) := of_bytes .x80Class 10 _ rfl
theorem classPseudoNanHi (s : BitVec 1) (l : BitVec 62) : Statement (.classPseudoNanHi s l) := of_bytes .x80Class 10 _ rfl
theorem classInf (s : BitVec 1) : Statement (.classInf s) := of_bytes .x80Class 10 _ rfl
theorem classNan (s : BitVec 1) (l : BitVec 62) : Statement (.classNan s l) := of_bytes .x80Class 10 _ rfl
theorem classIndefinite (s : BitVec 1) : Statement (.classIndefinite s) := of_bytes .x80Class 10 _ rfl
theorem classQuietNan (s : BitVec 1) (l : BitVec 62) : Statement (.classQuietNan s l) := of_bytes .x80Class 10 _ rfl
theorem classNormal (s : BitVec 1) (e : BitVec 15) (m : BitVec 64) : Statement (.classNormal s e m) :=
  of_bytes .x80Class 10 _ rfl
theorem normalizeUnnormal (s : BitVec 1) (e : BitVec 15) (f : BitVec 63) : Statement (.normalizeUnnormal s e f) :=
  of_bytes .x80Operand 10 _ rfl
theorem normalizeTooSmall (s : BitVec 1) (e : BitVec 15) (f : BitVec 63) : Statement (.normalizeTooSmall s e f) :=
  of_bytes .x80Operand 10 _ rfl
theorem normalizeTooLarge (s : BitVec 1) (e : BitVec 15) (f : BitVec 63) : Statement (.normalizeTooLarge s e f) :=
  of_bytes .x80Operand 10 _ rfl
theorem normalizeOk (s : BitVec 1) (e : BitVec 15) (f : BitVec 63) : Statement (.normalizeOk s e f) :=
  of_bytes .x80Operand 10 _ rfl

end Sys2Proof.Laws.EncodeFits
end

