-- ==== Sys2Proof/Tests/Slice0.lean ====
section
/-! SUPPORT. Own tests. Words are written out from R60, R62, R63 and R70; expected results are the spec's worked examples and
vectors (95_test_vectors.md), named in each comment. -/

namespace Sys2Proof.Tests

open Sys2Proof Sys2Proof.Machine

/-! ### Ill-formed terms are refused -/

theorem test_wf_illegal_length_ten : (Instr.x2dIllegalLength 0#1 10#8 0#80).wellFormed = false := by decide
theorem test_wf_decompose_padding : (Instr.decompose .little 5 10 ⟨0#8, 0#16⟩).wellFormed = true ∧
    (Instr.decompose .little 5 11 ⟨0#8, 0#24⟩).wellFormed = false := by decide
theorem test_wf_decompose_zero_width : (Instr.decompose .little 0 7 ⟨0#8, 0#8⟩).wellFormed = false ∧
    (Instr.decompose .little 7 0 ⟨0#8, 0#8⟩).wellFormed = false := by decide
theorem test_wf_recompose_padding : (Instr.recompose .big 8 24 ⟨0#1, 0#8, 0#24⟩).wellFormed = false := by decide
theorem test_wf_denormal_zero : (Instr.classDenormal 0#1 0#63).wellFormed = false := by decide
theorem test_wf_pseudo_nan_lo_zero : (Instr.classPseudoNanLo 1#1 0#62).wellFormed = false := by decide
theorem test_wf_nan_zero : (Instr.classNan 0#1 0#62).wellFormed = false := by decide
theorem test_wf_quiet_nan_zero : (Instr.classQuietNan 0#1 0#62).wellFormed = false := by decide
theorem test_wf_normal_range : (Instr.classNormal 0#1 0#15 0#64).wellFormed = false ∧
    (Instr.classNormal 0#1 1#15 0#64).wellFormed = true ∧ (Instr.classNormal 0#1 32766#15 0#64).wellFormed = true ∧
    (Instr.classNormal 0#1 32767#15 0#64).wellFormed = false := by decide
theorem test_wf_unnormal_range : (Instr.normalizeUnnormal 0#1 0#15 0#63).wellFormed = false ∧
    (Instr.normalizeUnnormal 0#1 32767#15 0#63).wellFormed = false := by decide
theorem test_wf_too_small_range : (Instr.normalizeTooSmall 0#1 0#15 0#63).wellFormed = false ∧
    (Instr.normalizeTooSmall 0#1 15359#15 0#63).wellFormed = true ∧
    (Instr.normalizeTooSmall 0#1 15360#15 0#63).wellFormed = false := by decide
theorem test_wf_too_large_range : (Instr.normalizeTooLarge 0#1 17406#15 0#63).wellFormed = false ∧
    (Instr.normalizeTooLarge 0#1 17407#15 0#63).wellFormed = true ∧
    (Instr.normalizeTooLarge 0#1 32767#15 0#63).wellFormed = false := by decide
theorem test_wf_ok_range : (Instr.normalizeOk 0#1 15359#15 0#63).wellFormed = false ∧
    (Instr.normalizeOk 0#1 15360#15 0#63).wellFormed = true ∧ (Instr.normalizeOk 0#1 17406#15 0#63).wellFormed = true ∧
    (Instr.normalizeOk 0#1 17407#15 0#63).wellFormed = false := by decide

/-! ### Decoding written-out words -/

/-- What a word decodes to; none where the decoder refuses. -/
def read (w : Word) : Option Instr :=
  match decode w with
  | .ok i => some i
  | .error _ => none

/-- V9's request: `in_data` in ten bytes, then `in_len = 0x0A`, then `byte_order = 0`. -/
theorem test_decode_x2d_le :
    read ⟨.req, [0x00#8, 0x68#8, 0x66#8, 0x66#8, 0x66#8, 0x66#8, 0x66#8, 0x8A#8, 0x04#8, 0x40#8, 0x0A#8, 0x00#8]⟩ =
      some (.x2dLe 0x40048A66666666666800#80) := by decide
/-- V13's request `0x10A006866666666668A0440`. -/
theorem test_decode_x2d_be : decodeTableWord 96 0x10A006866666666668A0440 = some (.x2dBe 0x006866666666668A0440#80) := by
  decide
/-- V61's request `0x10900000000000000000000`, nine bytes in big order. -/
theorem test_decode_illegal_length :
    decodeTableWord 96 0x10900000000000000000000 = some (.x2dIllegalLength 1#1 9#8 0#80) := by decide
/-- S1's operands: order, length, then the ten lanes. -/
theorem test_decode_decompose :
    read ⟨.extractor 15 64, [0x00#8, 0x0A#8, 0x00#8, 0x68#8, 0x66#8, 0x66#8, 0x66#8, 0x66#8, 0x66#8, 0x8A#8, 0x04#8, 0x40#8]⟩ =
      some (.decompose .little 15 64 ⟨10#8, 0x40048A66666666666800#80⟩) := by decide
/-- S8's operands: `N = {1, 0x7FF, 0}` in eight bytes, order big (R62). -/
theorem test_decode_recompose :
    read ⟨.packer 11 52, [0x01#8, 0x00#8, 0x00#8, 0x00#8, 0x00#8, 0x00#8, 0x00#8, 0xF0#8, 0xFF#8]⟩ =
      some (.recompose .big 11 52 ⟨1#1, 0x7FF#11, 0#52⟩) := by decide
/-- K8's operands: `{E, M} = {0x3FFF, 0x8000000000000000}` in 79 bits. -/
theorem test_decode_classify :
    read ⟨.classifier, [0x00#8, 0x00#8, 0x00#8, 0x00#8, 0x00#8, 0x00#8, 0x00#8, 0x80#8, 0xFF#8, 0x3F#8]⟩ =
      some (.classify 0x3FFF#15 0x8000000000000000#64) := by decide
/-- Z9's operands. -/
theorem test_decode_normalize :
    read ⟨.normalizer, [0x00#8, 0x08#8, 0x00#8, 0x00#8, 0x00#8, 0x00#8, 0x00#8, 0x80#8, 0xFF#8, 0x3F#8]⟩ =
      some (.normalize 16383#15 0x8000000000000800#64) := by decide
theorem test_decode_zero : decodeTableWord 80 0x00000000000000000000 = some (.classZero 0#1) := by decide
theorem test_decode_denormal : decodeTableWord 80 0x80007FFFFFFFFFFFFFFF =
    some (.classDenormal 1#1 0x7FFFFFFFFFFFFFFF#63) := by decide
theorem test_decode_pseudo_denormal : decodeTableWord 80 0x00008000000000000001 = some (.classPseudoDenormal 0#1 1#63) := by
  decide
theorem test_decode_pseudo_inf : decodeTableWord 80 0xFFFF0000000000000000 = some (.classPseudoInf 1#1) := by decide
theorem test_decode_pseudo_nan_lo : decodeTableWord 80 0x7FFF3FFFFFFFFFFFFFFF =
    some (.classPseudoNanLo 0#1 0x3FFFFFFFFFFFFFFF#62) := by decide
theorem test_decode_pseudo_nan_hi : decodeTableWord 80 0x7FFF4000000000000000 = some (.classPseudoNanHi 0#1 0#62) := by decide
theorem test_decode_inf : decodeTableWord 80 0x7FFF8000000000000000 = some (.classInf 0#1) := by decide
theorem test_decode_nan : decodeTableWord 80 0xFFFF8000000000000001 = some (.classNan 1#1 1#62) := by decide
theorem test_decode_indefinite : decodeTableWord 80 0xFFFFC000000000000000 = some (.classIndefinite 1#1) := by decide
theorem test_decode_quiet_nan : decodeTableWord 80 0x7FFFC000000000000001 = some (.classQuietNan 0#1 1#62) := by decide
/-- Followed to its class only, an operand with `0 < E < 32767` is `NORMAL`, its integer bit not tested. -/
theorem test_decode_normal :
    read ⟨.x80Class, [0x00#8, 0x00#8, 0x00#8, 0x00#8, 0x00#8, 0x00#8, 0x00#8, 0x40#8, 0xFF#8, 0x3F#8]⟩ =
      some (.classNormal 0#1 0x3FFF#15 0x4000000000000000#64) := by decide
theorem test_decode_unnormal : decodeTableWord 80 0x3FFF4000000000000000 =
    some (.normalizeUnnormal 0#1 0x3FFF#15 0x4000000000000000#63) := by decide
theorem test_decode_too_small : decodeTableWord 80 0x3BFF8000000000000000 = some (.normalizeTooSmall 0#1 15359#15 0#63) := by
  decide
theorem test_decode_too_large : decodeTableWord 80 0xC3FF8000000000000001 = some (.normalizeTooLarge 1#1 17407#15 1#63) := by
  decide
theorem test_decode_ok : decodeTableWord 80 0x3C008000000000000000 = some (.normalizeOk 0#1 15360#15 0#63) ∧
    decodeTableWord 80 0x43FE8000000000000000 = some (.normalizeOk 0#1 17406#15 0#63) := by decide
/-- The table gives `PORT` rows no bits; 81 to 96 bits are a `REQ`, and bit 89 has no wire. -/
theorem test_decode_refuses : decodeTableWord 0 0 = none ∧ decodeTableWord 64 0 = none ∧
    decodeTableWord 96 (2 ^ 89) = none ∧ decodeTableWord 97 0 = none := by decide

/-! ### One step each -/

/-- The state after an instruction runs on the reset state; none where it stops. -/
def after (i : Instr) : Option Machine.State :=
  match exec i State.reset with
  | .next t => some t
  | .fault _ => none
  | .refused _ => none

/-- The vector `RSP` (R64) after an instruction. -/
def rsp (i : Instr) : Option (BitVec 71) := (after i).map fun t => t.converter.response.bits

/-- The class code on the converter's inner wire after an instruction. -/
def wireClass (i : Instr) : Option (BitVec 4) := (after i).map fun t => t.converter.wires.cls

/-- V9, V4. -/
theorem test_x2d_le : rsp (.x2dLe 0x40048A66666666666800#80) = some 0x0040414CCCCCCCCCCD#71 ∧
    rsp (.x2dLe 0xC0008000000000000000#80) = some 0x00C000000000000000#71 := by decide
/-- V13, V11. -/
theorem test_x2d_be : rsp (.x2dBe 0x006866666666668A0440#80) = some 0x0040414CCCCCCCCCCD#71 ∧
    rsp (.x2dBe 0x40048C00000000000000#80) = some 0x440000000000000000#71 := by decide
/-- V58, V61. -/
theorem test_illegal_length : rsp (.x2dIllegalLength 0#1 9#8 0#80) = some 0x220000000000000000#71 ∧
    rsp (.x2dIllegalLength 1#1 9#8 0xFFFFFFFFFFFFFFFFFFFF#80) = some 0x220000000000000000#71 := by decide
/-- S5: V9's bytes in the wrong order. -/
theorem test_decompose : (after (decomposeBuffer .big 15 64
      [0x00#8, 0x68#8, 0x66#8, 0x66#8, 0x66#8, 0x66#8, 0x66#8, 0x8A#8, 0x04#8, 0x40#8])).map
    (fun t => (t.extractor.lenErr, t.extractor.fields.sign.toNat, t.extractor.fields.exponent.toNat,
      t.extractor.fields.mantissa.toNat)) = some (0#1, 0, 0x0068, 0x66666666668A0440) := by decide
/-- S10, nine bytes, and S11, ten bytes into the 8-byte format. -/
theorem test_decompose_length :
    (after (decomposeBuffer .little 15 64 (List.replicate 9 0#8))).map (fun t => t.extractor.lenErr) = some 1#1 ∧
    (after (decomposeBuffer .little 11 52 (List.replicate 10 0#8))).map (fun t => (t.extractor.len, t.extractor.lenErr)) =
      some (10#8, 1#1) := by decide
/-- S7, S8. -/
theorem test_recompose : (after (.recompose .little 11 52 ⟨0#1, 0x404#11, 0x14CCCCCCCCCCD#52⟩)).map (fun t => t.packer.data) =
      some [0xCD#8, 0xCC#8, 0xCC#8, 0xCC#8, 0xCC#8, 0x4C#8, 0x41#8, 0x40#8] ∧
    (after (.recompose .big 11 52 ⟨1#1, 0x7FF#11, 0#52⟩)).map (fun t => t.packer.data) =
      some [0xFF#8, 0xF0#8, 0x00#8, 0x00#8, 0x00#8, 0x00#8, 0x00#8, 0x00#8] := by decide
/-- K6, K14. -/
theorem test_classify : (after (.classify 1#15 0#64)).map (fun t => t.classifier.cls) = some 10#4 ∧
    (after (.classify 32767#15 0x4000000000000000#64)).map (fun t => t.classifier.cls) = some 5#4 := by decide
/-- Z6. -/
theorem test_normalize : (after (.normalize 17406#15 0xFFFFFFFFFFFFFFFF#64)).map (fun t => t.normalizer) =
    some ⟨17406#15, 0xFFFFFFFFFFFFFFFF#64, 0#1, 0#1, 0#1, 0x7FE#11, 0xFFFFFFFFFFFFF#52, 1#1⟩ := by decide
/-- Z12 (outside class `NORMAL`). -/
theorem test_normalize_zero_exponent : (after (.normalize 0#15 0x8000000000000000#64)).map (fun t => t.normalizer) =
    some ⟨0#15, 0x8000000000000000#64, 0#1, 1#1, 0#1, 0#11, 0#52, 0#1⟩ := by decide
/-- V2. -/
theorem test_class_zero : rsp (.classZero 1#1) = some 0x008000000000000000#71 := by decide
/-- V39. -/
theorem test_class_denormal : rsp (.classDenormal 1#1 0x7FFFFFFFFFFFFFFF#63) = some 0x440000000000000000#71 := by decide
/-- V41. -/
theorem test_class_pseudo_denormal : rsp (.classPseudoDenormal 1#1 0x7FFFFFFFFFFFFFFF#63) =
    some 0x460000000000000000#71 := by decide
/-- V43. -/
theorem test_class_pseudo_inf : rsp (.classPseudoInf 1#1) = some 0x00FFF0000000000000#71 := by decide
/-- V45. -/
theorem test_class_pseudo_nan_lo : rsp (.classPseudoNanLo 1#1 0x3FFFFFFFFFFFFFFF#62) = some 0x007FF8000000000000#71 := by
  decide
/-- V46, K14. -/
theorem test_class_pseudo_nan_hi : rsp (.classPseudoNanHi 0#1 0#62) = some 0x007FF8000000000000#71 ∧
    wireClass (.classPseudoNanHi 0#1 0#62) = some 5#4 := by decide
/-- V49. -/
theorem test_class_inf : rsp (.classInf 1#1) = some 0x00FFF0000000000000#71 := by decide
/-- V51: payload bits are dropped and no flag is given. -/
theorem test_class_nan : rsp (.classNan 1#1 0x3FFFFFFFFFFFFFFF#62) = some 0x007FF8000000000000#71 := by decide
/-- V52. -/
theorem test_class_indefinite : rsp (.classIndefinite 0#1) = some 0x6E0000000000000000#71 := by decide
/-- V55. -/
theorem test_class_quiet_nan : rsp (.classQuietNan 1#1 0x3FFFFFFFFFFFFFFF#62) = some 0x700000000000000000#71 := by decide
/-- V32, V36: pi, and an unnormal whose exponent is also too small. -/
theorem test_class_normal : rsp (.classNormal 0#1 0x4000#15 0xC90FDAA22168C235#64) = some 0x01400921FB54442D18#71 ∧
    rsp (.classNormal 0#1 1#15 0x4000000000000000#64) = some 0x480000000000000000#71 := by decide
/-- V37: an unnormal whose exponent is also too large. -/
theorem test_unnormal : rsp (.normalizeUnnormal 1#1 32766#15 0x7FFFFFFFFFFFFFFF#63) = some 0x480000000000000000#71 := by decide
/-- V5. -/
theorem test_too_small : rsp (.normalizeTooSmall 0#1 15359#15 0#63) = some 0x6A0000000000000000#71 := by decide
/-- V6. -/
theorem test_too_large : rsp (.normalizeTooLarge 0#1 17407#15 0#63) = some 0x6C0000000000000000#71 := by decide
/-- V34, V19: truncation toward zero of a negative operand; `E = 15360`. -/
theorem test_ok : rsp (.normalizeOk 1#1 0x3FFB#15 0x4CCCCCCCCCCCCCCD#63) = some 0x01BFB9999999999999#71 ∧
    rsp (.normalizeOk 0#1 15360#15 0x7FFFFFFFFFFFFFFF#63) = some 0x01000FFFFFFFFFFFFF#71 := by decide

/-- The host's way in: V8 as the first word after reset. -/
theorem test_first_word : (match step (State.reset.withFetchWord 96 0x00A40048C00000000000000) with
    | .next t => some t.converter.response.bits
    | _ => none) = some 0x004041800000000000#71 := by decide

/-! ### Witnesses: for every statement with hypotheses, an input that meets them, at the ends of the range of each clause -/

/-- V8's request as a presented word. -/
def sampleWord : Word :=
  ⟨.req, [0x00#8, 0x00#8, 0x00#8, 0x00#8, 0x00#8, 0x00#8, 0x00#8, 0x8C#8, 0x04#8, 0x40#8, 0x0A#8, 0x00#8]⟩

/-- The reset state with words to present. -/
def presenting (ws : List Word) : Machine.State := { State.reset with pending := ws }

/-- A settled state other than reset's: V8's request on the converter. -/
def sampleState : Machine.State := State.reset.convert ⟨0#1, 10#8, 0x40048C00000000000000#80⟩

theorem sample_settled : sampleState.Settled := by constructor <;> decide

theorem witness_StepKeepsSettled : sampleState.Settled ∧ ∃ t, step sampleState = .next t := ⟨sample_settled, _, rfl⟩
theorem witness_StepRunsDecodedInstruction :
    (presenting [sampleWord]).pending = [sampleWord] ∧ decode sampleWord = .ok (.x2dLe 0x40048C00000000000000#80) :=
  ⟨rfl, rfl⟩
theorem witness_IdleStepOfSettledChangesNothing : sampleState.Settled ∧ sampleState.pending = [] := ⟨sample_settled, rfl⟩
theorem witness_UnadmittedWidthsAreRefused : Config.admitted 5 11 = false ∧ Config.admitted 0 7 = false ∧
    (presenting [⟨.extractor 5 11, []⟩]).pending = [⟨.extractor 5 11, []⟩] ∧
    (presenting [⟨.packer 5 11, [0#8]⟩]).pending = [⟨.packer 5 11, [0#8]⟩] := by decide
/-- One word for each clause: a byte short, a byte too many, the first wire beyond the port, the least wrong order byte. -/
theorem witness_UnpresentableWordsStop :
    (List.replicate 11 0#8 : List Byte).length ≠ 12 ∧
    (List.replicate 11 0#8 ++ [2#8] : List Byte).length = 12 ∧ 2 ^ 89 ≤ littleValue (List.replicate 11 0#8 ++ [2#8]) ∧
    (List.replicate 11 0#8 : List Byte).length ≠ 10 ∧
    (List.replicate 9 0#8 ++ [0x80#8] : List Byte).length = 10 ∧
    2 ^ 79 ≤ littleValue (List.replicate 9 0#8 ++ [0x80#8]) ∧
    Config.admitted 1 6 = true ∧ ([] : List Byte).length ≠ 2 + (1 + 1 + 6 + 7) / 8 ∧
    ([0#8, 1#8] : List Byte).length ≠ 2 + (1 + 1 + 6 + 7) / 8 ∧ ([] : List Byte).length ≠ 1 + (1 + 1 + 6 + 7) / 8 ∧
    2 ≤ (2#8 : Byte).toNat ∧ ([2#8, 1#8, 0#8] : List Byte).length = 2 + (1 + 1 + 6 + 7) / 8 ∧
    ([2#8, 0#8] : List Byte).length = 1 + (1 + 1 + 6 + 7) / 8 ∧
    (presenting [⟨.unknown 64, []⟩]).pending = [⟨.unknown 64, []⟩] := by decide
theorem witness_DecodeOfEncodeIsIdentity : (Instr.normalizeOk 1#1 15360#15 0#63).wellFormed = true ∧
    (Instr.x2dIllegalLength 0#1 9#8 0#80).wellFormed = true ∧ (Instr.classNan 1#1 1#62).wellFormed = true ∧
    (Instr.recompose .big 1 6 ⟨1#1, 1#1, 63#6⟩).wellFormed = true := by decide
theorem witness_EncodeOfDecodeGivesTheBytes : decode sampleWord = .ok (.x2dLe 0x40048C00000000000000#80) := rfl
theorem witness_EveryOperandAndRequestDecodes : (List.replicate 10 0xFF#8 : List Byte).length = 10 ∧
    (List.replicate 11 0xFF#8 ++ [1#8] : List Byte).length = 12 ∧
    littleValue (List.replicate 11 0xFF#8 ++ [1#8]) < 2 ^ 89 := by decide
theorem witness_ClassRowsAreDecodedExactly : classRows.length = 11 ∧
    (classRows.map fun r => r.matches 0x7FFFC000000000000001#80) =
      [false, false, false, false, false, false, false, false, false, true, false] := by decide
theorem witness_NormalizerRowsAreDecodedExactly : normalizeRows.length = 4 ∧
    (normalizeRows.map fun r => r.matches 0x3C008000000000000000#80) = [false, false, false, true] := by decide
theorem witness_BytesInvertsBufferValue : 255 < 256 ^ 1 ∧ 0 < 256 ^ 0 ∧ 2 ^ 80 - 1 < 256 ^ 10 := by decide
theorem witness_ByteOrderPlacesTheBytes : (List.replicate 10 0x80#8 : List Byte).length = 10 ∧ 0 < 10 ∧ 9 < 10 := by decide
/-- For `ExtractorPortsShowTheOutcome`: a right and a wrong length on the port, the widths of the largest format with
`NB < 255`, and both outcomes for a buffer. -/
theorem witness_ExtractorPortsShowTheOutcome : Config.admitted 15 64 = true ∧ (10#8).toNat = (1 + 15 + 64 + 7) / 8 ∧
    (9#8).toNat ≠ (1 + 15 + 64 + 7) / 8 ∧ (255#8).toNat ≠ (1 + 15 + 64 + 7) / 8 ∧ Config.admitted 15 2016 = true ∧
    (1 + 15 + 2016 + 7) / 8 = 254 ∧ decomposeBuffer .little 1 6 [0x80#8] = .decompose .little 1 6 ⟨1#8, 0x80#8⟩ ∧
    decomposeBuffer .little 1 6 [0x80#8, 1#8] = .decompose .little 1 6 ⟨2#8, 0x80#8⟩ := by decide
/-- For `DecomposeCutsFieldsOutOfTheBuffer`, `RecomposePacksFieldsIntoBytes`,
`PackerPortsShowTheBuffer`, `CodecRoundTrips` and `CodecOrderDuality`: the least widths, both formats, a right and a wrong length. -/
theorem witness_codec : Config.admitted 1 6 = true ∧ Config.admitted 6 1 = true ∧ Config.admitted 15 64 = true ∧
    Config.admitted 11 52 = true ∧ ([0x80#8] : List Byte).length = (1 + 1 + 6 + 7) / 8 ∧
    (List.replicate 10 0#8 : List Byte).length = (1 + 15 + 64 + 7) / 8 ∧
    (List.replicate 9 0#8 : List Byte).length ≠ (1 + 15 + 64 + 7) / 8 ∧
    (List.replicate 11 0#8 : List Byte).length ≠ (1 + 15 + 64 + 7) / 8 := by decide
/-- Both ends of each clause of `NormalizeFollowsItsSteps` and `NormalizerPortsShowTheOutcome`: `d` for `E` = 15359, 15360, 17406,
17407, and `M` on both sides of `2^63`. -/
theorem witness_normalize_clauses : (0x7FFFFFFFFFFFFFFF#64).toNat < 2 ^ 63 ∧ 2 ^ 63 ≤ (0x8000000000000000#64).toNat ∧
    (((15359#15).toNat : Int) - 16383 + 1023 < 0 ∧ (15359#15).toNat ≤ 15359) ∧
    (0 ≤ ((15360#15).toNat : Int) - 16383 + 1023 ∧ 15360 ≤ (15360#15).toNat) ∧
    (((17406#15).toNat : Int) - 16383 + 1023 < 2047 ∧ (17406#15).toNat ≤ 17406) ∧
    (2047 ≤ ((17407#15).toNat : Int) - 16383 + 1023 ∧ 17407 ≤ (17407#15).toNat) := by decide
theorem witness_NormalizeNeverReachesInfinity : 2 ^ 63 ≤ (0x8000000000000000#64).toNat ∧ 17407 ≤ (17407#15).toNat ∧
    (17406#15).toNat = 17406 ∧ ∃ r, normalizeOperand 17406#15 0x8000000000000000#64 = .ok r := ⟨by decide, by decide, rfl, _, rfl⟩
theorem witness_NormalizeTruncatesTheFraction :
    (∃ r, normalizeOperand 16383#15 0x8000000000000400#64 = .ok r) ∧
    (∃ r', normalizeOperand 16384#15 0x80000000000007FF#64 = .ok r') ∧
    (0x80000000000007FF#64).extractLsb' 11 52 = (0x8000000000000400#64).extractLsb' 11 52 := ⟨⟨_, rfl⟩, ⟨_, rfl⟩, by decide⟩
theorem witness_PrecisionLossIffDroppedBits :
    (0x80000000000007FF#64).extractLsb' 11 53 = (0x8000000000000000#64).extractLsb' 11 53 ∧
    (∃ r, normalizeOperand 16383#15 0x80000000000007FF#64 = .ok r) ∧
    (0x80000000000007FF#64).extractLsb' 0 11 ≠ 0#11 := ⟨by decide, ⟨_, rfl⟩, by decide⟩
/-- For the rows with a payload: `DenormalRowsAreUnsupported`, `NanRowsGiveOneNan`, `IndefiniteAndQuietNanRowsAreOutOfRange`. -/
theorem witness_payload_rows : (1#63 : BitVec 63) ≠ 0#63 ∧ (0x7FFFFFFFFFFFFFFF#63 : BitVec 63) ≠ 0#63 ∧
    (1#62 : BitVec 62) ≠ 0#62 := by decide
/-- The ends of every exponent range of `NormalRowIsNormalizeWithSign`, `NormalizerFaultRowsFault`,
`NormalizedRowGivesTheTruncatedDouble`, `ResultIsOperandRoundedTowardZero` and `ResultIsLargestDoubleNotAbove`. -/
theorem witness_exponent_ranges :
    (0 < (1#15).toNat ∧ (1#15).toNat < 32767) ∧ (0 < (32766#15).toNat ∧ (32766#15).toNat < 32767) ∧
    (1 ≤ (1#15).toNat ∧ (1#15).toNat ≤ 15359) ∧ (1 ≤ (15359#15).toNat ∧ (15359#15).toNat ≤ 15359) ∧
    (17407 ≤ (17407#15).toNat ∧ (17407#15).toNat ≤ 32766) ∧ (17407 ≤ (32766#15).toNat ∧ (32766#15).toNat ≤ 32766) ∧
    (15360 ≤ (15360#15).toNat ∧ (15360#15).toNat ≤ 17406) ∧ (15361 ≤ (15361#15).toNat ∧ (15361#15).toNat ≤ 17406) ∧
    (15361 ≤ (17406#15).toNat ∧ (17406#15).toNat ≤ 17406) := by decide
theorem witness_ResultIsLargestDoubleNotAbove : doubleExponent 0#64 ≠ 2047#11 ∧
    doubleMagnitude 0#64 ≤ extendedMagnitude (15361#15).toNat (2 ^ 63 + (0#63).toNat) := by
  refine ⟨by decide, ?_⟩
  have h0 : doubleMagnitude 0#64 = 0 := by
    have he : doubleExponent 0#64 = 0#11 := by decide
    have hm : (doubleMantissa 0#64).toNat = 0 := by decide
    rw [doubleMagnitude, if_pos he, hm]
    simp
  rw [h0, extendedMagnitude]
  positivity
theorem witness_WrongLengthFaultsBeforeAnythingElse : ([] : List Byte).length ≠ 10 ∧
    (List.replicate 9 0#8 : List Byte).length ≠ 10 ∧ (List.replicate 11 0#8 : List Byte).length ≠ 10 := by decide
/-- V38, V40, in big order. -/
theorem witness_DenormalOperandsAreUnsupported :
    (∃ f, decompose .big 15 64 (List.replicate 9 0#8 ++ [1#8]) = .ok f ∧ f.exponent = 0#15 ∧
      f.mantissa.extractLsb' 63 1 = 0#1 ∧ f.mantissa ≠ 0#64) ∧
    (∃ f, decompose .big 15 64 ([0#8, 0#8, 0x80#8] ++ List.replicate 7 0#8) = .ok f ∧ f.exponent = 0#15 ∧
      f.mantissa.extractLsb' 63 1 = 1#1) := by
  refine ⟨⟨_, rfl, ?_, ?_, ?_⟩, ⟨_, rfl, ?_, ?_⟩⟩ <;> decide
/-- V53, V54. -/
theorem witness_IndefiniteAndQuietNanOperandsAreOutOfRange :
    (∃ f, decompose .little 15 64 (List.replicate 7 0#8 ++ [0xC0#8, 0xFF#8, 0xFF#8]) = .ok f ∧ f.exponent = 32767#15 ∧
      f.mantissa = 0xC000000000000000#64) ∧
    (∃ f, decompose .little 15 64 ([1#8] ++ List.replicate 6 0#8 ++ [0xC0#8, 0xFF#8, 0x7F#8]) = .ok f ∧
      f.exponent = 32767#15 ∧ f.mantissa.extractLsb' 62 2 = 3#2 ∧ f.mantissa.extractLsb' 0 62 ≠ 0#62) := by
  refine ⟨⟨_, rfl, ?_, ?_⟩, ⟨_, rfl, ?_, ?_, ?_⟩⟩ <;> decide
/-- V15 (a fault of the normalizer) and V3 (its `Ok`). -/
theorem witness_NormalOperandsAreNormalizedWithSign :
    (∃ f, decompose .little 15 64 (List.replicate 7 0#8 ++ [0x80#8, 0x01#8, 0x00#8]) = .ok f ∧ 0 < f.exponent.toNat ∧
      f.exponent.toNat < 32767 ∧ normalizeOperand f.exponent f.mantissa = .fault .outOfRange .tooSmall) ∧
    (∃ f, decompose .little 15 64 (List.replicate 7 0#8 ++ [0x80#8, 0x00#8, 0x40#8]) = .ok f ∧ 0 < f.exponent.toNat ∧
      f.exponent.toNat < 32767 ∧ normalizeOperand f.exponent f.mantissa = .ok ⟨1024#11, 0#52, 0#1⟩) := by
  refine ⟨⟨_, rfl, ?_, ?_, ?_⟩, ⟨_, rfl, ?_, ?_, ?_⟩⟩ <;> decide
theorem witness_IllegalLengthFaultsWhateverTheData : (0#8 : BitVec 8) ≠ 10#8 ∧ (9#8 : BitVec 8) ≠ 10#8 ∧
    (11#8 : BitVec 8) ≠ 10#8 ∧ (255#8 : BitVec 8) ≠ 10#8 := by decide

/-- The sign, `E` and `M` that the ten bytes of an operand spell in little order. -/
def spelled (N : Nat) : Nat × Nat × Nat :=
  let U := unsignedOf .little (littleBytes 10 N)
  (U / 2 ^ 79, U / 2 ^ 64 % 2 ^ 15, U % 2 ^ 64)

/-- One operand for every clause of `SummaryTableHolds`, at the ends of the clause's ranges. -/
theorem witness_SummaryTableHolds :
    spelled 0x80000000000000000000 = (1, 0, 0) ∧ spelled 1 = (0, 0, 1) ∧ spelled 0x7FFFFFFFFFFFFFFF = (0, 0, 2 ^ 63 - 1) ∧
    spelled 0x8000000000000000 = (0, 0, 2 ^ 63) ∧ spelled 0x7FFF0000000000000000 = (0, 32767, 0) ∧
    spelled 0x7FFF0000000000000001 = (0, 32767, 1) ∧ spelled 0x7FFF7FFFFFFFFFFFFFFF = (0, 32767, 2 ^ 63 - 1) ∧
    spelled 0x7FFF8000000000000000 = (0, 32767, 2 ^ 63) ∧ spelled 0x7FFF8000000000000001 = (0, 32767, 2 ^ 63 + 1) ∧
    spelled 0x7FFFBFFFFFFFFFFFFFFF = (0, 32767, 3 * 2 ^ 62 - 1) ∧ spelled 0x7FFFC000000000000000 = (0, 32767, 3 * 2 ^ 62) ∧
    spelled 0x7FFFC000000000000001 = (0, 32767, 3 * 2 ^ 62 + 1) ∧ spelled 0x00017FFFFFFFFFFFFFFF = (0, 1, 2 ^ 63 - 1) ∧
    spelled 0x7FFE0000000000000000 = (0, 32766, 0) ∧ spelled 0x00018000000000000000 = (0, 1, 2 ^ 63) ∧
    spelled 0x3BFF8000000000000000 = (0, 15359, 2 ^ 63) ∧ spelled 0x3C008000000000000000 = (0, 15360, 2 ^ 63) ∧
    spelled 0xC3FEFFFFFFFFFFFFFFFF = (1, 17406, 2 ^ 64 - 1) ∧ spelled 0x43FF8000000000000000 = (0, 17407, 2 ^ 63) ∧
    spelled 0x7FFE8000000000000000 = (0, 32766, 2 ^ 63) ∧ (littleBytes 10 0).length = 10 ∧
    (List.replicate 9 0#8 : List Byte).length ≠ 10 := by decide
/-- V50 is a NaN, V1 is not, and both are OK. -/
theorem witness_SignSymmetry :
    (evalConverter ⟨0#1, 10#8, 0x7FFF8000000000000001#80⟩).response.status = 0#2 ∧
    isNaN (evalConverter ⟨0#1, 10#8, 0x7FFF8000000000000001#80⟩).response.result = true ∧
    (evalConverter ⟨0#1, 10#8, 0#80⟩).response.status = 0#2 ∧
    isNaN (evalConverter ⟨0#1, 10#8, 0#80⟩).response.result = false := by decide
/-- An infinity and a NaN (exponent field 2047), a zero and `E = 15360` (exponent field 0). -/
theorem witness_ResultExponentFieldsAreAccountedFor :
    (∃ f, decompose .little 15 64 (littleBytes 10 0x7FFF8000000000000000) = .ok f ∧
      x2d .little (littleBytes 10 0x7FFF8000000000000000) = .ok (0x7FF0000000000000#64, 0#1) ∧
      doubleExponent 0x7FF0000000000000#64 = 2047#11) ∧
    (∃ f, decompose .little 15 64 (littleBytes 10 0x7FFF4000000000000000) = .ok f ∧
      x2d .little (littleBytes 10 0x7FFF4000000000000000) = .ok (0x7FF8000000000000#64, 0#1) ∧
      doubleExponent 0x7FF8000000000000#64 = 2047#11) ∧
    (∃ f, decompose .little 15 64 (littleBytes 10 0) = .ok f ∧ x2d .little (littleBytes 10 0) = .ok (0#64, 0#1)) ∧
    (∃ f, decompose .little 15 64 (littleBytes 10 0x3C008000000000000000) = .ok f ∧
      x2d .little (littleBytes 10 0x3C008000000000000000) = .ok (0#64, 0#1)) := by
  refine ⟨⟨_, rfl, ?_, ?_⟩, ⟨_, rfl, ?_, ?_⟩, ⟨_, rfl, ?_⟩, ⟨_, rfl, ?_⟩⟩ <;> decide
theorem witness_ResponsesCarryOneFaultAndZeros :
    (evalConverter ⟨0#1, 9#8, 0#80⟩).response.status ≠ 0#2 ∧ (evalConverter ⟨0#1, 10#8, 0#80⟩).response.status = 0#2 := by
  decide
theorem witness_OutputBytesAreLittleEndian :
    (∃ g, decompose .big 15 64 (List.replicate 10 0#8) = .ok g ∧ convertFields g = .ok (⟨0#1, 0#11, 0#52⟩, 0#1)) ∧ 0 < 8 ∧
    7 < 8 := by
  refine ⟨⟨_, rfl, ?_⟩, ?_, ?_⟩ <;> decide
theorem witness_SameRequestSameResponse : decode sampleWord = .ok (.x2dLe 0x40048C00000000000000#80) ∧
    (presenting [sampleWord]).pending = [sampleWord] ∧
    (presenting [sampleWord, sampleWord]).pending = [sampleWord, sampleWord] := ⟨rfl, rfl, rfl⟩
theorem witness_BlocksShareNothing : (∃ t, exec (.classify 1#15 0#64) State.reset = .next t) ∧
    Block.converter ≠ Block.of (.classify 1#15 0#64) := ⟨⟨_, rfl⟩, by decide⟩
/-- A faulting request (nine bytes) before the sample. -/
theorem witness_EarlierRequestsLeaveNoTrace :
    (presenting ([⟨.req, List.replicate 10 0xFF#8 ++ [9#8, 0#8]⟩] ++ [sampleWord])).pending =
      [⟨.req, List.replicate 10 0xFF#8 ++ [9#8, 0#8]⟩] ++ [sampleWord] ∧
    [(⟨.req, List.replicate 10 0xFF#8 ++ [9#8, 0#8]⟩ : Word)].all decodes = true ∧
    decode sampleWord = .ok (.x2dLe 0x40048C00000000000000#80) := ⟨rfl, by decide, rfl⟩
theorem witness_WellPresentedProgramsNeverStop : (presenting [sampleWord, sampleWord]).wellPresented = true := by decide

end Sys2Proof.Tests
end

section
/-! PROOFS. Buffers as integers (R12): each order's recursion as a rule, big order as little order read backwards, and from
these the weighted sums and the round trips. -/

namespace Sys2Proof.Machine

open Sys2Proof

/-! ### Big order is little order backwards -/

/-- Reading on from an accumulator: what was read weighs above everything still to come. -/
theorem bigValueFrom_eq_add (acc : Nat) (B : List Byte) :
    bigValueFrom acc B = acc * 256 ^ B.length + bigValueFrom 0 B := by
  induction B generalizing acc with
  | nil => simp [bigValueFrom]
  | cons b bs ih =>
    rw [bigValueFrom, bigValueFrom, ih, ih (256 * 0 + b.toNat), List.length_cons, pow_succ]
    ring

/-- In big order the first byte is the most significant one. -/
theorem bigValueFrom_zero_cons (b : Byte) (bs : List Byte) :
    bigValueFrom 0 (b :: bs) = b.toNat * 256 ^ bs.length + bigValueFrom 0 bs := by
  rw [bigValueFrom, bigValueFrom_eq_add]
  simp

/-- `U(B, big)` is `U` in little order of the reversed buffer. -/
theorem bigValueFrom_zero_eq_littleValue_reverse (B : List Byte) : bigValueFrom 0 B = littleValue B.reverse := by
  induction B with
  | nil => rfl
  | cons b bs ih =>
    rw [bigValueFrom_zero_cons, List.reverse_cons, littleValue_append, List.length_reverse, ih]
    simp only [littleValue]
    ring

/-- The last byte in little order is the most significant one. -/
theorem littleBytes_succ_eq_append (n N : Nat) :
    littleBytes (n + 1) N = littleBytes n N ++ [BitVec.ofNat 8 (N / 256 ^ n)] := by
  induction n generalizing N with
  | zero => simp [littleBytes]
  | succ n ih => rw [littleBytes, ih, Nat.div_div_eq_div_mul, ← pow_succ', littleBytes, List.cons_append]

/-- `Bytes(N, n, big)` is `Bytes(N, n, little)` reversed. -/
theorem bigBytes_eq_reverse_littleBytes (n N : Nat) : bigBytes n N = (littleBytes n N).reverse := by
  induction n with
  | zero => rfl
  | succ n ih =>
    rw [bigBytes, ih, littleBytes_succ_eq_append, List.reverse_append, List.reverse_singleton, List.singleton_append]

/-! ### The sums of R12 -/

theorem littleValue_eq_sum (B : List Byte) :
    littleValue B = ∑ i : Fin B.length, (B.get i).toNat * 256 ^ i.val := by
  induction B with
  | nil => rfl
  | cons b bs ih =>
    rw [littleValue, ih, Finset.mul_sum]
    refine Eq.trans ?_ (Fin.sum_univ_succ (n := bs.length) _).symm
    simp [pow_succ, mul_assoc, mul_comm]

theorem bigValueFrom_zero_eq_sum (B : List Byte) :
    bigValueFrom 0 B = ∑ i : Fin B.length, (B.get i).toNat * 256 ^ (B.length - 1 - i.val) := by
  induction B with
  | nil => rfl
  | cons b bs ih =>
    rw [bigValueFrom_zero_cons, ih]
    refine Eq.trans ?_ (Fin.sum_univ_succ (n := bs.length) _).symm
    simp [Nat.sub_sub, Nat.add_comm]

/-- Settles O14: each order's sum, by induction on the buffer. -/
theorem bufferSpellsWeightedSum : Obligations.BufferSpellsWeightedSum :=
  fun B => ⟨littleValue_eq_sum B, bigValueFrom_zero_eq_sum B⟩

/-! ### `Bytes` and `U` are inverse -/

/-- The bytes of what a buffer spells in little order are the buffer. -/
theorem littleBytes_littleValue (B : List Byte) : littleBytes B.length (littleValue B) = B := by
  induction B with
  | nil => rfl
  | cons b bs ih =>
    have hb := b.isLt
    have low : BitVec.ofNat 8 (b.toNat + 256 * littleValue bs) = b := by
      apply BitVec.eq_of_toNat_eq
      rw [BitVec.toNat_ofNat]
      omega
    have high : (b.toNat + 256 * littleValue bs) / 256 = littleValue bs := by omega
    rw [littleValue, List.length_cons, littleBytes, low, high, ih]

/-- The bytes of what a buffer spells are the buffer, in either order (R12). -/
theorem bytesOf_unsignedOf (order : ByteOrder) (B : List Byte) : bytesOf order B.length (unsignedOf order B) = B := by
  cases order with
  | little => exact littleBytes_littleValue B
  | big =>
    have h := littleBytes_littleValue B.reverse
    rw [List.length_reverse] at h
    rw [bytesOf, unsignedOf, bigBytes_eq_reverse_littleBytes, bigValueFrom_zero_eq_littleValue_reverse, h,
      List.reverse_reverse]

@[simp] theorem bytesOf_length (order : ByteOrder) (n N : Nat) : (bytesOf order n N).length = n := by
  cases order with
  | little => exact littleBytes_length n N
  | big => exact bigBytes_length n N

/-- The `n` bytes of `N` spell `N` modulo `256 ^ n`, in either order. -/
theorem unsignedOf_bytesOf_mod (order : ByteOrder) (n N : Nat) : unsignedOf order (bytesOf order n N) = N % 256 ^ n := by
  cases order with
  | little => exact littleValue_littleBytes_mod n N
  | big =>
    rw [bytesOf, unsignedOf, bigValueFrom_zero_eq_littleValue_reverse, bigBytes_eq_reverse_littleBytes,
      List.reverse_reverse, littleValue_littleBytes_mod]

/-- Settles O15: big order is little order reversed, and little order peels one byte at a time. -/
theorem bytesInvertsBufferValue : Obligations.BytesInvertsBufferValue :=
  fun order => ⟨bytesOf_unsignedOf order, fun n N h =>
    ⟨bytesOf_length order n N, (unsignedOf_bytesOf_mod order n N).trans (Nat.mod_eq_of_lt h)⟩⟩

end Sys2Proof.Machine
end

section
/-! PROOFS. The converter's wiring (R35) against the function `X2D` (R135). -/

namespace Sys2Proof.Machine

open Sys2Proof

/-- `decompose` with the right length succeeds (R80). -/
theorem decompose_of_length {order : ByteOrder} {ew mw : Nat} {B : List Byte} (h : B.length = Config.byteCount ew mw) :
    decompose order ew mw B = .ok (unpack ew mw (unsignedOf order B)) :=
  if_neg (not_not.mpr h)

/-- `decompose` with a wrong length faults (R80). -/
theorem decompose_of_length_ne {order : ByteOrder} {ew mw : Nat} {B : List Byte} (h : B.length ≠ Config.byteCount ew mw) :
    decompose order ew mw B = raise .invalidLength :=
  if_pos h

/-- `X2D` of ten bytes is the `case` on the fields they spell (R135). -/
theorem x2d_of_length {order : ByteOrder} {B : List Byte} (h : B.length = 10) :
    x2d order B = (convertFields (unpack 15 64 (unsignedOf order B))).bind fun r => .ok (doublePattern r.1, r.2) := by
  have hd : decompose order 15 64 B = _ := decompose_of_length h
  exact congrArg (Verdict.bind · _) hd

/-- `X2D` of any other length is the length fault (R137). -/
theorem x2d_of_length_ne {order : ByteOrder} {B : List Byte} (h : B.length ≠ 10) :
    x2d order B = raise .invalidLength := by
  have hd : decompose order 15 64 B = _ := decompose_of_length_ne h
  exact congrArg (Verdict.bind · _) hd

/-- The converter's response is the selection of R35, made from the extractor's outputs and the blocks they feed. -/
theorem evalConverter_response (r : Request) {lenErr : BitVec 1} {f : FloatFields 15 64}
    (h : extractorOutputs 15 64 r.byteOrder r.inLen.toNat (littleBytes 10 r.inData.toNat) = (lenErr, f)) :
    (evalConverter r).response =
      Response.ofVerdict ((selectOutputs lenErr (classify f.exponent f.mantissa) f.sign
        (evalNormalizer f.exponent f.mantissa)).bind fun r => .ok (doublePattern r.1, r.2)) := by
  simp only [evalConverter, h]

/-- A request of ten bytes gets the outcome of `X2D` of its ten lanes (R35, R135). -/
theorem evalConverter_response_of_inLen (r : Request) (h : r.inLen.toNat = 10) :
    (evalConverter r).response =
      Response.ofVerdict (x2d (portOrder r.byteOrder) (littleBytes 10 r.inData.toNat)) := by
  rw [evalConverter_response r (extractorOutputs_of_length _ _ h), selectOutputs_eq_convertFields,
    x2d_of_length (littleBytes_length 10 _)]

/-- A request of any other length gets the length fault (R35, R137). -/
theorem evalConverter_response_of_inLen_ne (r : Request) (h : r.inLen.toNat ≠ 10) :
    (evalConverter r).response = Response.ofVerdict (raise .invalidLength) := by
  rw [evalConverter_response r (extractorOutputs_of_length_ne _ _ h)]
  rfl

/-- The lanes of a ten-byte buffer, read back, are the buffer. -/
theorem littleBytes_lanePort {n : Nat} {B : List Byte} (h : B.length = n) : littleBytes n (lanePort n B).toNat = B := by
  rw [lanePort_toNat B h, ← h, littleBytes_littleValue]

/-- Settles O46: the length port shows 10 exactly for a buffer of ten bytes; then the lanes carry the buffer, and otherwise both
levels answer the length fault. -/
theorem portsRefineTheFunction : Obligations.PortsRefineTheFunction := by
  intro order B
  have hport : (presentBuffer order B).inLen.toNat = 10 ↔ B.length = 10 := lenPort_toNat_eq_iff B (by decide)
  by_cases h : B.length = 10
  · rw [evalConverter_response_of_inLen _ (hport.mpr h)]
    simp only [presentBuffer, portOrder_orderPort, littleBytes_lanePort h]
  · rw [evalConverter_response_of_inLen_ne _ (mt hport.mp h), x2d_of_length_ne h]

end Sys2Proof.Machine
end

section
/-! PROOFS. The row `NORMALIZE.OK`: its response on the converter's ports (R120, R124, R145), and what the result is worth by
R16's formulas (R129, R195). -/

namespace Sys2Proof.Machine

open Sys2Proof

/-! ### The response of the row -/

/-- Between the two special exponents the class is `NORMAL` (R112). -/
theorem classify_of_exponent_between {e : BitVec 15} (m : BitVec 64) (h0 : 0 < e.toNat) (h1 : e.toNat < 32767) :
    classify e m = .normal := by
  have hz : e ≠ 0#15 := by rintro rfl; simp at h0
  have hi : e ≠ 32767#15 := by rintro rfl; simp at h1
  rw [classify, if_neg hz, if_neg hi]

/-- With the integer bit set and `15360 <= E <= 17406`, `normalize` succeeds (R120). -/
theorem normalizeOperand_of_range {e : BitVec 15} {m : BitVec 64} (hb : integerBit m = 1#1) (h0 : 15360 ≤ e.toNat)
    (h1 : e.toNat ≤ 17406) :
    normalizeOperand e m = .ok ⟨BitVec.ofInt 11 (eDouble e), mant52 m, precisionLost m⟩ := by
  have he := eDouble_eq e
  have hne : integerBit m ≠ 0#1 := by rw [hb]; decide
  rw [normalizeOperand, if_neg hne, if_neg (by omega), if_neg (by omega)]

/-- The fields cut out of an assembled operand are the ones it was assembled from (R60, R66). -/
theorem unpack_x80 (s : BitVec 1) (e : BitVec 15) (m : BitVec 64) : unpack 15 64 (x80 s e m).toNat = ⟨s, e, m⟩ := by
  obtain ⟨hsign, hexp, hmant⟩ := unpack_toNat 15 64 (x80 s e m).toNat
  have hN := x80_toNat s e m
  have := s.isLt; have := e.isLt; have := m.isLt
  have hs : (x80 s e m).toNat / 2 ^ (64 + 15) % 2 = s.toNat := by omega
  have he : (x80 s e m).toNat / 2 ^ 64 % 2 ^ 15 = e.toNat := by omega
  have hm : (x80 s e m).toNat % 2 ^ 64 = m.toNat := by omega
  exact fields_eq_of_toNat (hsign.trans hs) (hexp.trans he) (hmant.trans hm)

/-- `X2D` of the ten bytes of an assembled operand is the `case` on its fields (R60, R135). -/
theorem x2d_little_x80 (s : BitVec 1) (e : BitVec 15) (m : BitVec 64) :
    x2d .little (littleBytes 10 (x80 s e m).toNat) =
      (convertFields ⟨s, e, m⟩).bind fun r => .ok (doublePattern r.1, r.2) := by
  have hlt : (x80 s e m).toNat < 256 ^ 10 := (x80 s e m).isLt
  rw [x2d_of_length (littleBytes_length 10 _), unsignedOf, littleValue_littleBytes_mod, Nat.mod_eq_of_lt hlt, unpack_x80]

/-- The double of the row `NORMALIZE.OK`: sign, `e_double`, and the truncated fraction (R68). -/
def normalizedDouble (sign : BitVec 1) (e : BitVec 15) (frac : BitVec 63) : BitVec 64 :=
  doublePattern ⟨sign, BitVec.ofInt 11 (eDouble e), mant52 (1#1 ++ frac)⟩

/-- The row `NORMALIZE.OK` completes with OK, its double, and the flag of its mantissa (R120, R145). -/
theorem exec_normalizeOk (sign : BitVec 1) {e : BitVec 15} (frac : BitVec 63) (s : State) (h0 : 15360 ≤ e.toNat)
    (h1 : e.toNat ≤ 17406) :
    ∃ c : Converter, exec (.normalizeOk sign e frac) s = .next { s with converter := c } ∧
      c.response = ⟨0#2, 0#4, precisionLost (1#1 ++ frac), normalizedDouble sign e frac⟩ := by
  refine ⟨evalConverter ⟨0#1, 10#8, normalizedOperand sign e frac⟩, rfl, ?_⟩
  have hclass := classify_of_exponent_between (e := e) (1#1 ++ frac) (by omega) (by omega)
  have hnorm := normalizeOperand_of_range (integerBit_append 1#1 frac) h0 h1
  rw [evalConverter_response_of_inLen _ rfl]
  simp only [normalizedOperand, portOrder, if_true, x2d_little_x80, convertFields, hclass, hnorm, Verdict.bind_ok,
    Response.ofVerdict, normalizedDouble]

/-! ### The fields of the result -/

theorem doubleExponent_doublePattern (f : FloatFields 11 52) : doubleExponent (doublePattern f) = f.exponent := by
  apply BitVec.eq_of_toNat_eq
  have := f.sign.isLt; have := f.exponent.isLt; have := f.mantissa.isLt
  rw [doubleExponent, BitVec.extractLsb'_toNat, Nat.shiftRight_eq_div_pow, doublePattern_toNat]
  omega

theorem doubleMantissa_doublePattern (f : FloatFields 11 52) : doubleMantissa (doublePattern f) = f.mantissa := by
  apply BitVec.eq_of_toNat_eq
  have := f.sign.isLt; have := f.exponent.isLt; have := f.mantissa.isLt
  rw [doubleMantissa, BitVec.extractLsb'_toNat, Nat.shiftRight_zero, doublePattern_toNat]
  omega

/-- The exponent field of the result is `e_double = E - 15360` (R121). -/
theorem doubleExponent_normalizedDouble (sign : BitVec 1) {e : BitVec 15} (frac : BitVec 63) (h0 : 15360 ≤ e.toNat)
    (h1 : e.toNat ≤ 17406) : (doubleExponent (normalizedDouble sign e frac)).toNat = e.toNat - 15360 := by
  rw [normalizedDouble, doubleExponent_doublePattern, BitVec.toNat_ofInt, eDouble_eq]
  omega

/-- The mantissa field of the result is the fraction without its 11 lowest bits (R124). -/
theorem doubleMantissa_normalizedDouble (sign : BitVec 1) (e : BitVec 15) (frac : BitVec 63) :
    (doubleMantissa (normalizedDouble sign e frac)).toNat = frac.toNat / 2 ^ 11 := by
  have hf := frac.isLt
  rw [normalizedDouble, doubleMantissa_doublePattern, mant52_toNat, bitFraction_toNat]
  omega

/-- The flag of an operand is 0 exactly when the 11 lowest bits of its fraction are (R125). -/
theorem precisionLost_append_eq_zero_iff (b : BitVec 1) (frac : BitVec 63) :
    precisionLost (b ++ frac) = 0#1 ↔ frac.toNat % 2 ^ 11 = 0 := by
  have hdropped : (discarded (b ++ frac)).toNat = frac.toNat % 2 ^ 11 := by
    rw [discarded_toNat, bitFraction_toNat]
    omega
  have hzero : discarded (b ++ frac) = 0#11 ↔ frac.toNat % 2 ^ 11 = 0 := by
    rw [← BitVec.toNat_inj, hdropped, BitVec.toNat_ofNat, Nat.zero_mod]
  rw [precisionLost, ← hzero, ite_eq_left_iff]
  exact ⟨fun h => by_contra fun hne => absurd (h hne) (by decide), fun h hne => absurd h hne⟩

/-! ### Magnitudes (R16) -/

/-- One unit in the last place of a result with `E >= 15361`: `2^(E - 16383 - 52)`. -/
def unitInLastPlace (e : Nat) : ℚ := (2 : ℚ) ^ ((e : ℤ) - 16383 - 52)

theorem unitInLastPlace_pos (e : Nat) : 0 < unitInLastPlace e := zpow_pos two_pos _

/-- The leading bit weighs `2^52` units in the last place. -/
theorem zpow_eq_unitInLastPlace_mul (e : Nat) : (2 : ℚ) ^ ((e : ℤ) - 16383) = unitInLastPlace e * 2 ^ 52 := by
  rw [unitInLastPlace, zpow_sub₀ two_ne_zero _ 52]
  norm_num

/-- An operand with the integer bit set, in units in the last place of the result: the kept fraction bits, and the dropped
ones as a fraction of a unit. -/
theorem extendedMagnitude_eq (e f : Nat) :
    extendedMagnitude e (2 ^ 63 + f) =
      unitInLastPlace e * (2 ^ 52 + (f / 2 ^ 11 : Nat) + (f % 2 ^ 11 : Nat) / 2 ^ 11) := by
  have hf : (f : ℚ) = 2 ^ 11 * (f / 2 ^ 11 : Nat) + (f % 2 ^ 11 : Nat) := by
    exact_mod_cast (Nat.div_add_mod f (2 ^ 11)).symm
  rw [extendedMagnitude, zpow_eq_unitInLastPlace_mul, Nat.cast_add, hf]
  push_cast
  ring

/-- A double with exponent field above 0 and `E - 15360` there, in units in the last place. -/
theorem doubleMagnitude_of_exponent {v : BitVec 64} {e : Nat} (h : 15361 ≤ e)
    (hv : (doubleExponent v).toNat = e - 15360) :
    doubleMagnitude v = unitInLastPlace e * (2 ^ 52 + (doubleMantissa v).toNat) := by
  have hne : doubleExponent v ≠ 0#11 := by
    intro h0
    rw [h0, BitVec.toNat_ofNat] at hv
    omega
  have hexp : ((doubleExponent v).toNat : ℤ) - 1023 = (e : ℤ) - 16383 := by omega
  rw [doubleMagnitude, if_neg hne, hexp, zpow_eq_unitInLastPlace_mul]
  ring

/-- The operand is the result plus the dropped bits (R129). -/
theorem extendedMagnitude_eq_doubleMagnitude_add (sign : BitVec 1) {e : BitVec 15} (frac : BitVec 63)
    (h0 : 15361 ≤ e.toNat) (h1 : e.toNat ≤ 17406) :
    extendedMagnitude e.toNat (2 ^ 63 + frac.toNat) = doubleMagnitude (normalizedDouble sign e frac) +
      unitInLastPlace e.toNat * ((frac.toNat % 2 ^ 11 : Nat) / 2 ^ 11) := by
  have hv := doubleExponent_normalizedDouble sign frac (by omega) h1
  rw [extendedMagnitude_eq, doubleMagnitude_of_exponent h0 hv, doubleMantissa_normalizedDouble]
  ring

/-- The result is not above the operand. -/
theorem doubleMagnitude_normalizedDouble_le (sign : BitVec 1) {e : BitVec 15} (frac : BitVec 63) (h0 : 15361 ≤ e.toNat)
    (h1 : e.toNat ≤ 17406) :
    doubleMagnitude (normalizedDouble sign e frac) ≤ extendedMagnitude e.toNat (2 ^ 63 + frac.toNat) := by
  rw [extendedMagnitude_eq_doubleMagnitude_add sign frac h0 h1]
  exact le_add_of_nonneg_right (mul_nonneg (unitInLastPlace_pos _).le (by positivity))

/-- The dropped bits are less than a unit in the last place. -/
theorem dropped_lt_one (f : Nat) : ((f % 2 ^ 11 : Nat) : ℚ) / 2 ^ 11 < 1 := by
  rw [div_lt_one (by positivity)]
  exact_mod_cast Nat.mod_lt f (by norm_num)

/-- Settles O54: what the operand has above the result is its dropped bits, a fraction of one unit. -/
theorem resultIsOperandRoundedTowardZero : Obligations.ResultIsOperandRoundedTowardZero := by
  intro sign e frac s h0 h1
  obtain ⟨c, hexec, hresp⟩ := exec_normalizeOk sign frac s (by omega) h1
  have hu := unitInLastPlace_pos e.toNat
  refine ⟨c, hexec, by rw [hresp], ?_⟩
  rw [hresp]
  refine ⟨doubleMagnitude_normalizedDouble_le sign frac h0 h1, ?_⟩
  rw [extendedMagnitude_eq_doubleMagnitude_add sign frac h0 h1, precisionLost_append_eq_zero_iff]
  constructor
  · rw [add_sub_cancel_left]
    exact mul_lt_of_lt_one_right hu (dropped_lt_one frac.toNat)
  · rw [left_eq_add, mul_eq_zero, or_iff_right hu.ne', div_eq_zero_iff, or_iff_left (by norm_num), Nat.cast_eq_zero]

/-! ### Comparing doubles by their exponent fields -/

/-- Whatever its mantissa field, a double is below the power of two above its exponent field's. -/
theorem doubleMagnitude_lt (v : BitVec 64) :
    doubleMagnitude v < (2 : ℚ) ^ (((doubleExponent v).toNat : ℤ) + 1 - 1023) := by
  have hm : ((doubleMantissa v).toNat : ℚ) / 2 ^ 52 < 1 := by
    rw [div_lt_one (by positivity)]
    exact_mod_cast (doubleMantissa v).isLt
  unfold doubleMagnitude
  split
  · next h0 =>
    rw [h0]
    exact mul_lt_of_lt_one_right (by positivity) hm
  · rw [add_sub_right_comm, zpow_add_one₀ two_ne_zero]
    exact mul_lt_mul_of_pos_left (by linarith) (by positivity)

/-- A double with exponent field above 0 has at least its leading bit. -/
theorem le_doubleMagnitude {v : BitVec 64} (h : 0 < (doubleExponent v).toNat) :
    (2 : ℚ) ^ (((doubleExponent v).toNat : ℤ) - 1023) ≤ doubleMagnitude v := by
  have hne : doubleExponent v ≠ 0#11 := by
    intro h0
    simp [h0] at h
  rw [doubleMagnitude, if_neg hne]
  exact le_mul_of_one_le_right (by positivity) (le_add_of_nonneg_right (by positivity))

/-- A greater exponent field makes a greater double. -/
theorem doubleMagnitude_lt_of_exponent_lt {v w : BitVec 64} (h : (doubleExponent v).toNat < (doubleExponent w).toNat) :
    doubleMagnitude v < doubleMagnitude w :=
  calc doubleMagnitude v < (2 : ℚ) ^ (((doubleExponent v).toNat : ℤ) + 1 - 1023) := doubleMagnitude_lt v
    _ ≤ (2 : ℚ) ^ (((doubleExponent w).toNat : ℤ) - 1023) := zpow_le_zpow_right₀ one_le_two (by omega)
    _ ≤ doubleMagnitude w := le_doubleMagnitude (by omega)

/-- An operand's magnitude is below the power of two above its exponent's. -/
theorem extendedMagnitude_lt (e : Nat) {m : Nat} (h : m < 2 ^ 64) :
    extendedMagnitude e m < (2 : ℚ) ^ ((e : ℤ) + 1 - 16383) := by
  have hm : (m : ℚ) / 2 ^ 63 < 2 := by
    rw [div_lt_iff₀ (by positivity)]
    exact_mod_cast h
  rw [extendedMagnitude, add_sub_right_comm, zpow_add_one₀ two_ne_zero]
  exact mul_lt_mul_of_pos_left hm (by positivity)

/-- A double with a greater exponent field than the result's is above the operand. -/
theorem extendedMagnitude_lt_of_exponent_lt {e m : Nat} {d : BitVec 64} (hm : m < 2 ^ 64)
    (h : e < (doubleExponent d).toNat + 15360) (h0 : 0 < (doubleExponent d).toNat) :
    extendedMagnitude e m < doubleMagnitude d :=
  calc extendedMagnitude e m < (2 : ℚ) ^ ((e : ℤ) + 1 - 16383) := extendedMagnitude_lt e hm
    _ ≤ (2 : ℚ) ^ (((doubleExponent d).toNat : ℤ) - 1023) := zpow_le_zpow_right₀ one_le_two (by omega)
    _ ≤ doubleMagnitude d := le_doubleMagnitude h0

/-- A double with the result's exponent field that is not above the operand has no greater mantissa field than the kept
fraction bits. -/
theorem doubleMantissa_le_of_doubleMagnitude_le {e f : Nat} {d : BitVec 64} (h : 15361 ≤ e)
    (hd : (doubleExponent d).toNat = e - 15360) (hle : doubleMagnitude d ≤ extendedMagnitude e (2 ^ 63 + f)) :
    (doubleMantissa d).toNat ≤ f / 2 ^ 11 := by
  rw [doubleMagnitude_of_exponent h hd, extendedMagnitude_eq] at hle
  have hunits := le_of_mul_le_mul_left hle (unitInLastPlace_pos e)
  have hdrop := dropped_lt_one f
  have hlt : ((doubleMantissa d).toNat : ℚ) < ((f / 2 ^ 11 : Nat) : ℚ) + 1 := by linarith
  exact Nat.lt_succ_iff.mp (by exact_mod_cast hlt)

/-- No double that is not above the operand is above the result (R129), by comparing exponent fields and then mantissa
fields. -/
theorem doubleMagnitude_le_of_le_extendedMagnitude (sign : BitVec 1) {e : BitVec 15} (frac : BitVec 63) {d : BitVec 64}
    (h0 : 15361 ≤ e.toNat) (h1 : e.toNat ≤ 17406)
    (hle : doubleMagnitude d ≤ extendedMagnitude e.toNat (2 ^ 63 + frac.toNat)) :
    doubleMagnitude d ≤ doubleMagnitude (normalizedDouble sign e frac) := by
  have hv := doubleExponent_normalizedDouble sign frac (by omega) h1
  have hf := frac.isLt
  rcases lt_trichotomy (doubleExponent d).toNat (e.toNat - 15360) with hlt | heq | hgt
  · exact (doubleMagnitude_lt_of_exponent_lt (hlt.trans_eq hv.symm)).le
  · have hmant := doubleMantissa_le_of_doubleMagnitude_le h0 heq hle
    rw [doubleMagnitude_of_exponent h0 heq, doubleMagnitude_of_exponent h0 hv, doubleMantissa_normalizedDouble]
    have hcast : ((doubleMantissa d).toNat : ℚ) ≤ (frac.toNat / 2 ^ 11 : Nat) := Nat.cast_le.mpr hmant
    exact mul_le_mul_of_nonneg_left (by linarith) (unitInLastPlace_pos _).le
  · have hm : 2 ^ 63 + frac.toNat < 2 ^ 64 := by omega
    exact absurd hle (not_le_of_gt (extendedMagnitude_lt_of_exponent_lt hm (by omega) (by omega)))

/-- Settles O55: the exponent field of the result is at most 2046, and no double lies between the result and the operand. -/
theorem resultIsLargestDoubleNotAbove : Obligations.ResultIsLargestDoubleNotAbove := by
  intro sign e frac s h0 h1
  obtain ⟨c, hexec, hresp⟩ := exec_normalizeOk sign frac s (by omega) h1
  have hv := doubleExponent_normalizedDouble sign frac (by omega) h1
  have hfinite : doubleExponent (normalizedDouble sign e frac) ≠ 2047#11 := by
    intro hinf
    rw [hinf, BitVec.toNat_ofNat] at hv
    omega
  refine ⟨c, hexec, by rw [hresp], ?_⟩
  rw [hresp]
  exact ⟨hfinite, doubleMagnitude_normalizedDouble_le sign frac h0 h1,
    fun d _ hle => doubleMagnitude_le_of_le_extendedMagnitude sign frac h0 h1 hle⟩

/-- A double with exponent field 0 has no leading bit, so its mantissa field counts twice the unit that `E = 15360` has. -/
theorem doubleMagnitude_of_exponent_zero {v : BitVec 64} (h : doubleExponent v = 0#11) :
    doubleMagnitude v = unitInLastPlace 15360 * (2 * (doubleMantissa v).toNat) := by
  have hunit : (2 : ℚ) ^ (-1022 : ℤ) = unitInLastPlace 15360 * 2 ^ 53 := by
    rw [unitInLastPlace, ← zpow_natCast, ← zpow_add₀ two_ne_zero]
    exact congrArg _ (by norm_num)
  rw [doubleMagnitude, if_pos h, hunit]
  ring

/-- Settles O56: in units in the last place the result has twice the kept bits `k < 2^52`, the operand `2^52 + k` or more. -/
theorem exponent15360ReadsAsLess : Obligations.Exponent15360ReadsAsLess := by
  intro sign frac s
  obtain ⟨c, hexec, hresp⟩ := exec_normalizeOk sign (e := 15360#15) frac s (by decide) (by decide)
  have hzero : doubleExponent (normalizedDouble sign 15360#15 frac) = 0#11 :=
    BitVec.eq_of_toNat_eq (doubleExponent_normalizedDouble sign frac (by decide) (by decide))
  refine ⟨c, hexec, by rw [hresp], by rw [hresp, hzero], ?_⟩
  rw [hresp, doubleMagnitude_of_exponent_zero hzero, doubleMantissa_normalizedDouble, extendedMagnitude_eq]
  have hk : ((frac.toNat / 2 ^ 11 : Nat) : ℚ) < 2 ^ 52 := by
    have hf := frac.isLt
    exact_mod_cast (by omega : frac.toNat / 2 ^ 11 < 2 ^ 52)
  have hdrop : (0 : ℚ) ≤ (frac.toNat % 2 ^ 11 : Nat) / 2 ^ 11 := by positivity
  exact mul_lt_mul_of_pos_left (by linarith) (unitInLastPlace_pos 15360)

end Sys2Proof.Machine
end

section
/-! PROOFS. What a step and an instruction answer, one rule per case. -/

namespace Sys2Proof.Machine

open Sys2Proof

/-! ### What a step answers -/

/-- With nothing to present a step settles the outputs. -/
theorem step_of_pending_nil {s : State} (h : s.pending = []) : step s = .next s.settle := by
  simp only [step, h]

/-- A word that decodes is taken off the list and run. -/
theorem step_of_decode_ok {s : State} {w : Word} {ws : List Word} {i : Instr} (hp : s.pending = w :: ws)
    (hd : decode w = .ok i) : step s = exec i { s with pending := ws } := by
  simp only [step, hp, hd]

/-- A word that does not decode is rejected by the decoder's reason. -/
theorem step_of_decode_error {s : State} {w : Word} {ws : List Word} {e : DecodeError} (hp : s.pending = w :: ws)
    (hd : decode w = .error e) : step s = rejectWord e := by
  simp only [step, hp, hd]

/-! ### What an instruction answers -/

/-- Every instruction on the converter's ports presents one request, the same in every state. -/
theorem exec_of_converter {i : Instr} (h : Block.of i = .converter) : ∃ r, ∀ s, exec i s = .next (s.convert r) := by
  cases i with
  | decompose o ew mw b => cases h
  | recompose o ew mw f => cases h
  | classify e m => cases h
  | normalize e m => cases h
  | _ => exact ⟨_, fun _ => rfl⟩

theorem exec_decompose (o : ByteOrder) {ew mw : Nat} (b : BufferPorts ew mw) (s : State)
    (h : Config.admitted ew mw = true) : exec (.decompose o ew mw b) s = .next (s.extract o ew mw b) :=
  if_pos h

theorem exec_recompose (o : ByteOrder) {ew mw : Nat} (f : FloatFields ew mw) (s : State)
    (h : Config.admitted ew mw = true) : exec (.recompose o ew mw f) s = .next (s.pack o ew mw f) :=
  if_pos h

theorem exec_classify (e : BitVec 15) (m : BitVec 64) (s : State) : exec (.classify e m) s = .next (s.classify e m) := rfl

theorem exec_normalize (e : BitVec 15) (m : BitVec 64) (s : State) : exec (.normalize e m) s = .next (s.normalize e m) :=
  rfl

end Sys2Proof.Machine
end

section
/-! PROOFS. The combinational invariant (R36, R190): every way of driving a block keeps it, so every step does. -/

namespace Sys2Proof.Machine

open Sys2Proof

/-! ### Each way of driving a block keeps the invariant -/

namespace State.Settled

variable {s : State}

/-- The invariant does not speak of the caller's list. -/
theorem withPending (h : s.Settled) (ws : List Word) : ({ s with pending := ws } : State).Settled :=
  ⟨h.converter, h.extractor, h.packer, h.classifier, h.normalizer, h.extractorWidths, h.packerWidths⟩

theorem convert (h : s.Settled) (r : Request) : (s.convert r).Settled :=
  { h with converter := rfl }

theorem extract (h : s.Settled) (o : ByteOrder) {ew mw : Nat} (b : BufferPorts ew mw)
    (ha : Config.admitted ew mw = true) : (s.extract o ew mw b).Settled :=
  { h with extractor := rfl, extractorWidths := ha }

theorem pack (h : s.Settled) (o : ByteOrder) {ew mw : Nat} (f : FloatFields ew mw) (ha : Config.admitted ew mw = true) :
    (s.pack o ew mw f).Settled :=
  { h with packer := rfl, packerWidths := ha }

theorem classify (h : s.Settled) (e : BitVec 15) (m : BitVec 64) : (s.classify e m).Settled :=
  { h with classifier := rfl }

theorem normalize (h : s.Settled) (e : BitVec 15) (m : BitVec 64) : (s.normalize e m).Settled :=
  { h with normalizer := by rw [normalize_normalizer, evalNormalizer_exponent, evalNormalizer_mantissa] }

/-- Settled outputs are already what settling would make them. -/
theorem settle_eq_self (h : s.Settled) : s.settle = s := by
  unfold State.settle
  rw [← h.converter, ← h.extractor, ← h.packer, ← h.classifier, ← h.normalizer]

/-- An instruction that completes drives one block, and each way of driving one keeps the invariant. -/
theorem exec {t : State} {i : Instr} (h : s.Settled) (hexec : Machine.exec i s = .next t) : t.Settled := by
  obtain ⟨r, -, rfl⟩ | ⟨o, ew, mw, b, -, ha, rfl⟩ | ⟨o, ew, mw, f, -, ha, rfl⟩ | ⟨e, m, -, rfl⟩ | ⟨e, m, -, rfl⟩ :=
    exec_eq_next hexec
  · exact h.convert r
  · exact h.extract o b ha
  · exact h.pack o f ha
  · exact h.classify e m
  · exact h.normalize e m

end State.Settled

/-- Settles O3: an idle step changes nothing of a settled state, and any other step runs an instruction, which keeps the
invariant. -/
theorem stepKeepsSettled : Obligations.StepKeepsSettled := by
  intro s t hs hstep
  obtain ⟨-, rfl⟩ | ⟨w, ws, i, -, -, hexec⟩ := step_eq_next hstep
  · rwa [hs.settle_eq_self]
  · exact (hs.withPending ws).exec hexec

/-- Settles O2: with all inputs 0 the literals of the reset state are what each block's function gives. -/
theorem resetIsSettled : Obligations.ResetIsSettled where
  converter := by decide
  extractor := by decide
  packer := by decide
  classifier := by decide
  normalizer := by decide
  extractorWidths := by decide
  packerWidths := by decide

/-- Settles O5: an idle step settles the outputs, and settled outputs stay. -/
theorem idleStepOfSettledChangesNothing : Obligations.IdleStepOfSettledChangesNothing := by
  intro s hs hp
  rw [step_of_pending_nil hp, hs.settle_eq_self]

end Sys2Proof.Machine
end

section
/-! PROOFS. The decoder: what a word can decode to, and why a word no port can carry is rejected (R30, R92, log 2). -/

namespace Sys2Proof.Machine

open Sys2Proof

/-! ### What a word can decode to -/

theorem blockOf_decodeReq (v : BitVec 89) : Block.of (decodeReq v) = .converter := by
  unfold decodeReq
  dsimp only
  split_ifs <;> rfl

theorem blockOf_decodeClass (n : BitVec 80) : Block.of (decodeClass n) = .converter := by
  unfold decodeClass
  dsimp only
  split_ifs <;> rfl

theorem blockOf_decodeOperand (n : BitVec 80) : Block.of (decodeOperand n) = .converter := by
  unfold decodeOperand
  dsimp only
  split_ifs
  · exact blockOf_decodeClass n
  all_goals rfl

/-- A sequence of decoder checks that succeeds succeeded at its first part. -/
theorem exceptBind_eq_ok {ε α β : Type} {x : Except ε α} {f : α → Except ε β} {b : β} (h : x >>= f = .ok b) :
    ∃ a, x = .ok a ∧ f a = .ok b := by
  cases x with
  | ok a => exact ⟨a, rfl, h⟩
  | error e => cases h

theorem decodeExtractor_eq_ok {ew mw : Nat} {B : List Byte} {i : Instr} (h : decodeExtractor ew mw B = .ok i) :
    ∃ o b, i = .decompose o ew mw b := by
  unfold decodeExtractor at h
  split at h
  · obtain ⟨N, -, h⟩ := exceptBind_eq_ok h
    obtain ⟨o, -, h⟩ := exceptBind_eq_ok h
    cases h
    exact ⟨_, _, rfl⟩
  · cases h

theorem decodePacker_eq_ok {ew mw : Nat} {B : List Byte} {i : Instr} (h : decodePacker ew mw B = .ok i) :
    ∃ o f, i = .recompose o ew mw f := by
  unfold decodePacker at h
  split at h
  · obtain ⟨N, -, h⟩ := exceptBind_eq_ok h
    obtain ⟨o, -, h⟩ := exceptBind_eq_ok h
    cases h
    exact ⟨_, _, rfl⟩
  · cases h

/-- A word that decodes stands for an instruction on the converter's ports, or for one on another block's own, of admitted
widths where the block has widths (R83). -/
theorem decode_eq_ok {w : Word} {i : Instr} (h : decode w = .ok i) :
    Block.of i = .converter ∨
    (∃ o ew mw b, i = .decompose o ew mw b ∧ Config.admitted ew mw = true) ∨
    (∃ o ew mw f, i = .recompose o ew mw f ∧ Config.admitted ew mw = true) ∨
    (∃ e m, i = .classify e m) ∨ (∃ e m, i = .normalize e m) := by
  obtain ⟨format, B⟩ := w
  cases format with
  | req =>
    obtain ⟨N, -, h⟩ := exceptBind_eq_ok h
    cases h
    exact .inl (blockOf_decodeReq _)
  | x80Class =>
    obtain ⟨N, -, h⟩ := exceptBind_eq_ok h
    cases h
    exact .inl (blockOf_decodeClass _)
  | x80Operand =>
    obtain ⟨N, -, h⟩ := exceptBind_eq_ok h
    cases h
    exact .inl (blockOf_decodeOperand _)
  | extractor ew mw =>
    simp only [decode] at h
    split at h
    · next ha =>
      obtain ⟨o, b, rfl⟩ := decodeExtractor_eq_ok h
      exact .inr (.inl ⟨o, ew, mw, b, rfl, ha⟩)
    · cases h
  | packer ew mw =>
    simp only [decode] at h
    split at h
    · next ha =>
      obtain ⟨o, f, rfl⟩ := decodePacker_eq_ok h
      exact .inr (.inr (.inl ⟨o, ew, mw, f, rfl, ha⟩))
    · cases h
  | classifier =>
    obtain ⟨N, -, h⟩ := exceptBind_eq_ok h
    cases h
    exact .inr (.inr (.inr (.inl ⟨_, _, rfl⟩)))
  | normalizer =>
    obtain ⟨N, -, h⟩ := exceptBind_eq_ok h
    cases h
    exact .inr (.inr (.inr (.inr ⟨_, _, rfl⟩)))
  | unknown nbits => cases h

/-! ### Why a word is rejected -/

theorem portBits_of_length_ne {size bits : Nat} {B : List Byte} (h : B.length ≠ size) :
    portBits size bits B = .error .wrongSize :=
  if_pos h

/-- A number with a bit beyond the wires of the port cannot be presented (R92). -/
theorem portBits_of_le {size bits : Nat} {B : List Byte} (hl : B.length = size) (h : 2 ^ bits ≤ littleValue B) :
    portBits size bits B = .error .noSuchWire := by
  rw [portBits, if_neg (not_not.mpr hl), if_neg (Nat.not_lt.mpr h)]

/-- A word of the right byte count is rejected only for a missing wire. -/
theorem portBits_of_length {size bits : Nat} {B : List Byte} (h : B.length = size) :
    (∃ N, portBits size bits B = .ok N) ∨ portBits size bits B = .error .noSuchWire := by
  obtain hlt | hle := Nat.lt_or_ge (littleValue B) (2 ^ bits)
  · exact .inl ⟨littleValue B, by rw [portBits, if_neg (not_not.mpr h), if_pos hlt]⟩
  · exact .inr (portBits_of_le h hle)

/-- A byte-order byte has one wire (R43). -/
theorem orderByte_of_two_le {o : Byte} (h : 2 ≤ o.toNat) : orderByte o = .error .noSuchWire := by
  have h0 : o ≠ 0#8 := by rintro rfl; simp at h
  have h1 : o ≠ 1#8 := by rintro rfl; simp at h
  rw [orderByte, if_neg h0, if_neg h1]

/-- After a rejected check the decoder's later ones are not run. -/
theorem exceptBind_of_error {ε α β : Type} {x : Except ε α} {e : ε} (h : x = .error e) (f : α → Except ε β) :
    (x >>= f) = .error e := by
  rw [h]; rfl

/-- The decoders of the codec's words reject a wrong order byte, whatever the port behind it carries. -/
theorem portBits_orderByte_eq_error {size bits : Nat} {B : List Byte} {o : Byte} (hl : B.length = size)
    (ho : 2 ≤ o.toNat) (f : Nat → ByteOrder → Except DecodeError Instr) :
    (portBits size bits B >>= fun N => orderByte o >>= f N) = .error .noSuchWire := by
  obtain ⟨N, hN⟩ | hN := portBits_of_length (bits := bits) hl
  · rw [hN]
    exact exceptBind_of_error (orderByte_of_two_le ho) (f N)
  · exact exceptBind_of_error hN _

/-- An extractor's word has a byte for the order, a byte for the length, and its lanes. -/
theorem decodeExtractor_of_length_ne {ew mw : Nat} {B : List Byte} (h : B.length ≠ 2 + Config.byteCount ew mw) :
    decodeExtractor ew mw B = .error .wrongSize := by
  match B with
  | [] => rfl
  | [_] => rfl
  | _ :: _ :: lanes =>
    have hlanes : lanes.length ≠ Config.byteCount ew mw := by rw [List.length_cons, List.length_cons] at h; omega
    exact exceptBind_of_error (portBits_of_length_ne hlanes) _

theorem decodeExtractor_of_order {ew mw : Nat} {o : Byte} {rest : List Byte}
    (hl : (o :: rest).length = 2 + Config.byteCount ew mw) (ho : 2 ≤ o.toNat) :
    decodeExtractor ew mw (o :: rest) = .error .noSuchWire := by
  match rest with
  | [] => rw [List.length_singleton] at hl; omega
  | _ :: lanes =>
    have hlanes : lanes.length = Config.byteCount ew mw := by rw [List.length_cons, List.length_cons] at hl; omega
    exact portBits_orderByte_eq_error hlanes ho _

/-- A packer's word has a byte for the order, and its fields. -/
theorem decodePacker_of_length_ne {ew mw : Nat} {B : List Byte} (h : B.length ≠ 1 + Config.byteCount ew mw) :
    decodePacker ew mw B = .error .wrongSize := by
  match B with
  | [] => rfl
  | _ :: fields =>
    have hfields : fields.length ≠ Config.byteCount ew mw := by rw [List.length_cons] at h; omega
    exact exceptBind_of_error (portBits_of_length_ne hfields) _

theorem decodePacker_of_order {ew mw : Nat} {o : Byte} {rest : List Byte}
    (hl : (o :: rest).length = 1 + Config.byteCount ew mw) (ho : 2 ≤ o.toNat) :
    decodePacker ew mw (o :: rest) = .error .noSuchWire := by
  have hfields : rest.length = Config.byteCount ew mw := by rw [List.length_cons] at hl; omega
  exact portBits_orderByte_eq_error hfields ho _

theorem decode_extractor {ew mw : Nat} (h : Config.admitted ew mw = true) (B : List Byte) :
    decode ⟨.extractor ew mw, B⟩ = decodeExtractor ew mw B :=
  if_pos h

theorem decode_packer {ew mw : Nat} (h : Config.admitted ew mw = true) (B : List Byte) :
    decode ⟨.packer ew mw, B⟩ = decodePacker ew mw B :=
  if_pos h

/-- Settles O7: each format's word is rejected by the byte count of its port, by the wires of its number, or by its order byte,
and a step answers the decoder's reason. -/
theorem unpresentableWordsStop : Obligations.UnpresentableWordsStop := by
  intro s B ws
  refine ⟨?req, ?reqWire, ?tenBytes, ?wire, ?codec, ?unknown⟩
  case req =>
    intro hl hp
    exact step_of_decode_error hp (exceptBind_of_error (portBits_of_length_ne hl) _)
  case reqWire =>
    intro hl hv hp
    exact step_of_decode_error hp (exceptBind_of_error (portBits_of_le hl hv) _)
  case tenBytes =>
    intro F hF hl hp
    refine step_of_decode_error (e := .wrongSize) hp ?_
    obtain rfl | rfl | rfl | rfl := hF
    all_goals exact exceptBind_of_error (portBits_of_length_ne hl) _
  case wire =>
    intro F hF hl hv hp
    refine step_of_decode_error (e := .noSuchWire) hp ?_
    obtain rfl | rfl := hF
    all_goals exact exceptBind_of_error (portBits_of_le hl hv) _
  case codec =>
    intro ew mw ha
    refine ⟨fun hl hp => ?_, fun hl hp => ?_, ?_⟩
    · exact step_of_decode_error hp ((decode_extractor ha B).trans (decodeExtractor_of_length_ne hl))
    · exact step_of_decode_error hp ((decode_packer ha B).trans (decodePacker_of_length_ne hl))
    · rintro o rest rfl ho
      refine ⟨fun hl hp => ?_, fun hl hp => ?_⟩
      · exact step_of_decode_error hp ((decode_extractor ha _).trans (decodeExtractor_of_order hl ho))
      · exact step_of_decode_error hp ((decode_packer ha _).trans (decodePacker_of_order hl ho))
  case unknown =>
    intro nbits hp
    exact step_of_decode_error hp rfl

end Sys2Proof.Machine
end

section
/-! PROOFS. Blocks share nothing (R179), and no request leaves a trace in a later response (R37, R175). -/

namespace Sys2Proof.Machine

open Sys2Proof

/-! ### The frame of each way of driving a block -/

section frame
variable {b : Block} (s : State)

theorem State.convert_agreeOn (r : Request) (hb : b ≠ .converter) : (s.convert r).agreeOn s b := by
  cases b with
  | converter => exact absurd rfl hb
  | _ => rfl

theorem State.extract_agreeOn (o : ByteOrder) {ew mw : Nat} (x : BufferPorts ew mw) (hb : b ≠ .extractor) :
    (s.extract o ew mw x).agreeOn s b := by
  cases b with
  | extractor => exact absurd rfl hb
  | _ => rfl

theorem State.pack_agreeOn (o : ByteOrder) {ew mw : Nat} (f : FloatFields ew mw) (hb : b ≠ .packer) :
    (s.pack o ew mw f).agreeOn s b := by
  cases b with
  | packer => exact absurd rfl hb
  | _ => rfl

theorem State.classify_agreeOn (e : BitVec 15) (m : BitVec 64) (hb : b ≠ .classifier) : (s.classify e m).agreeOn s b := by
  cases b with
  | classifier => exact absurd rfl hb
  | _ => rfl

theorem State.normalize_agreeOn (e : BitVec 15) (m : BitVec 64) (hb : b ≠ .normalizer) :
    (s.normalize e m).agreeOn s b := by
  cases b with
  | normalizer => exact absurd rfl hb
  | _ => rfl

end frame

/-- Settles O58: an instruction that completes drives its own block alone. -/
theorem blocksShareNothing : Obligations.BlocksShareNothing := by
  intro i s t hexec
  obtain ⟨r, hi, rfl⟩ | ⟨o, ew, mw, x, rfl, -, rfl⟩ | ⟨o, ew, mw, f, rfl, -, rfl⟩ | ⟨e, m, rfl, rfl⟩ | ⟨e, m, rfl, rfl⟩ :=
    exec_eq_next hexec
  · exact ⟨rfl, fun b hb => s.convert_agreeOn r (hi ▸ hb)⟩
  · exact ⟨rfl, fun b hb => s.extract_agreeOn o x hb⟩
  · exact ⟨rfl, fun b hb => s.pack_agreeOn o f hb⟩
  · exact ⟨rfl, fun b hb => s.classify_agreeOn e m hb⟩
  · exact ⟨rfl, fun b hb => s.normalize_agreeOn e m hb⟩

/-- An instruction never changes the caller's list. -/
theorem exec_pending {i : Instr} {s t : State} (h : exec i s = .next t) : t.pending = s.pending :=
  (blocksShareNothing i s t h).1

/-! ### The same word gets the same response -/

/-- A decoded instruction completes in any two states, and puts the same on its block's ports in both. -/
theorem exec_agreeOn_of_decode {w : Word} {i : Instr} (h : decode w = .ok i) (s t : State) :
    ∃ s' t', exec i s = .next s' ∧ exec i t = .next t' ∧ s'.agreeOn t' (Block.of i) := by
  obtain hi | ⟨o, ew, mw, b, rfl, ha⟩ | ⟨o, ew, mw, f, rfl, ha⟩ | ⟨e, m, rfl⟩ | ⟨e, m, rfl⟩ := decode_eq_ok h
  · obtain ⟨r, hr⟩ := exec_of_converter hi
    exact ⟨_, _, hr s, hr t, by rw [hi]; rfl⟩
  · exact ⟨_, _, exec_decompose o b s ha, exec_decompose o b t ha, rfl⟩
  · exact ⟨_, _, exec_recompose o f s ha, exec_recompose o f t ha, rfl⟩
  · exact ⟨_, _, exec_classify e m s, exec_classify e m t, rfl⟩
  · exact ⟨_, _, exec_normalize e m s, exec_normalize e m t, rfl⟩

/-- Settles O57: both steps run the instruction the word decodes to, which answers the same in every state. -/
theorem sameRequestSameResponse : Obligations.SameRequestSameResponse := by
  intro w i s t ws vs hd hs ht
  rw [step_of_decode_ok hs hd, step_of_decode_ok ht hd]
  exact exec_agreeOn_of_decode hd _ _

/-! ### Runs -/

/-- A step that answers is the first one of a run. -/
theorem run_succ_of_step {s t : State} (h : step s = .next t) (k : Nat) : core.run (k + 1) s = core.run k t := by
  have hcore : core.step s = .next t := h
  simp only [Host.Core.run, hcore]

/-- A word that decodes is presented and taken off the list, and the step completes. -/
theorem step_completes {s : State} {w : Word} {ws : List Word} (hp : s.pending = w :: ws) (hw : decodes w = true) :
    ∃ t, step s = .next t ∧ t.pending = ws := by
  unfold decodes at hw
  split at hw
  · next i hd =>
    obtain ⟨t, -, hexec, -⟩ := exec_agreeOn_of_decode hd { s with pending := ws } { s with pending := ws }
    exact ⟨t, (step_of_decode_ok hp hd).trans hexec, exec_pending hexec⟩
  · cases hw

/-- A list of words that decode is presented word by word, and what follows them stays. -/
theorem run_completes {s : State} {ws vs : List Word} (hp : s.pending = ws ++ vs) (hws : ws.all decodes = true) :
    ∃ t, t.pending = vs ∧ ∀ k, core.run (ws.length + k) s = core.run k t := by
  induction ws generalizing s with
  | nil => exact ⟨s, hp, fun k => by rw [List.length_nil, Nat.zero_add]⟩
  | cons w ws ih =>
    rw [List.all_cons, Bool.and_eq_true] at hws
    obtain ⟨hw, hws⟩ := hws
    obtain ⟨t, hstep, ht⟩ := step_completes hp hw
    obtain ⟨u, hu, hrun⟩ := ih ht hws
    refine ⟨u, hu, fun k => ?_⟩
    rw [List.length_cons, Nat.add_right_comm, run_succ_of_step hstep, hrun]

/-- Settles O59: the earlier words are presented and gone, and the last one gets the same response as after reset. -/
theorem earlierRequestsLeaveNoTrace : Obligations.EarlierRequestsLeaveNoTrace := by
  intro s ws w i hp hws hd
  obtain ⟨s', hs', hrun⟩ := run_completes hp hws
  obtain ⟨t, u, ht, hu, hagree⟩ :=
    exec_agreeOn_of_decode hd { s' with pending := [] } { State.reset with pending := [] }
  have hstep : step s' = .next t := (step_of_decode_ok hs' hd).trans ht
  refine ⟨t, u, ?_, (step_of_decode_ok rfl hd).trans hu, exec_pending ht, hagree⟩
  rw [hrun, run_succ_of_step hstep]
  rfl

end Sys2Proof.Machine
end

section
/-! PROOFS. What each block's ports show of its operation (R31 to R34). -/

namespace Sys2Proof.Machine

open Sys2Proof

/-! ### The classifier -/

/-- The class codes number the rows of the table from 0 (R101). -/
theorem classCode_position (c : FpClass) : (classCode c).toNat ≤ 10 ∧
    [FpClass.zero, .denormal, .pseudoDenormal, .pseudoInf, .pseudoNanLo, .pseudoNanHi, .inf, .nan, .indefinite, .quietNan,
      .normal][(classCode c).toNat]? = some c := by
  cases c <;> exact ⟨by decide, rfl⟩

/-- Settles O25: the port shows the code of the class, which is its position. -/
theorem classifierPortShowsTheRowNumber : Obligations.ClassifierPortShowsTheRowNumber :=
  fun e m s => ⟨classCode (classify e m), exec_classify e m s, classCode_position _⟩

/-! ### The packer -/

/-- Settles O21: the buffer's integer is the fields at their places, because they occupy disjoint bits. -/
theorem packerPortsShowTheBuffer : Obligations.PackerPortsShowTheBuffer := by
  intro order ew mw f s ha
  rw [exec_recompose order f s ha, State.pack, evalPacker, recompose, portOrder_orderPort, packed_eq]
  rfl

/-! ### The extractor -/

/-- The fields cut out of `N` by shift and mask are its quotients, each modulo its width (R66). -/
theorem unpack_eq_div (ew mw N : Nat) :
    unpack ew mw N = ⟨BitVec.ofNat 1 (N / 2 ^ (mw + ew)), BitVec.ofNat ew (N / 2 ^ mw), BitVec.ofNat mw N⟩ := by
  rw [unpack, Nat.shiftRight_eq_div_pow, Nat.shiftRight_eq_div_pow]

/-- `DECOMPOSE` puts on the extractor's ports its inputs and what `extractorOutputs` makes of them. -/
theorem exec_decompose_of_outputs (order : ByteOrder) {ew mw : Nat} (b : BufferPorts ew mw) (s : State)
    (ha : Config.admitted ew mw = true) {lenErr : BitVec 1} {f : FloatFields ew mw}
    (h : extractorOutputs ew mw (orderPort order) b.len.toNat (littleBytes (Config.byteCount ew mw) b.data.toNat) =
      (lenErr, f)) :
    exec (.decompose order ew mw b) s =
      .next { s with extractor := ⟨ew, mw, orderPort order, b.len, b.data, lenErr, f⟩ } := by
  rw [exec_decompose order b s ha, State.extract, evalExtractor, h]

theorem exec_decompose_of_len (order : ByteOrder) {ew mw : Nat} (b : BufferPorts ew mw) (s : State)
    (ha : Config.admitted ew mw = true) (h : b.len.toNat = Config.byteCount ew mw) :
    exec (.decompose order ew mw b) s =
      .next { s with extractor := ⟨ew, mw, orderPort order, b.len, b.data, 0#1,
        unpack ew mw (unsignedOf order (littleBytes (Config.byteCount ew mw) b.data.toNat))⟩ } := by
  refine exec_decompose_of_outputs order b s ha ?_
  rw [extractorOutputs_of_length _ _ h, portOrder_orderPort]

theorem exec_decompose_of_len_ne (order : ByteOrder) {ew mw : Nat} (b : BufferPorts ew mw) (s : State)
    (ha : Config.admitted ew mw = true) (h : b.len.toNat ≠ Config.byteCount ew mw) :
    exec (.decompose order ew mw b) s =
      .next { s with extractor := ⟨ew, mw, orderPort order, b.len, b.data, 1#1, ⟨0#1, 0#ew, 0#mw⟩⟩ } :=
  exec_decompose_of_outputs order b s ha (extractorOutputs_of_length_ne _ _ h)

/-- Settles O19: the port `len` decides; below 255 it shows `NB` exactly for a buffer of `NB` bytes, and then the lanes carry the
buffer. -/
theorem extractorPortsShowTheOutcome : Obligations.ExtractorPortsShowTheOutcome := by
  intro order ew mw s ha
  refine ⟨fun len data => ⟨fun hne => exec_decompose_of_len_ne order ⟨len, data⟩ s ha hne, ?_⟩, ?_⟩
  · rintro hlen N rfl
    rw [← unpack_eq_div]
    exact exec_decompose_of_len order ⟨len, data⟩ s ha hlen
  · intro hNB B
    have hport : (lenPort B).toNat = Config.byteCount ew mw ↔ B.length = Config.byteCount ew mw :=
      lenPort_toNat_eq_iff B hNB
    by_cases h : B.length = Config.byteCount ew mw
    · have hexec := exec_decompose_of_len order ⟨lenPort B, lanePort _ B⟩ s ha (hport.mpr h)
      simp only [littleBytes_lanePort h] at hexec
      exact ⟨_, _, hexec, fun _ => decompose_of_length h, fun h01 => absurd h01 (by decide)⟩
    · have hexec := exec_decompose_of_len_ne order ⟨lenPort B, lanePort _ B⟩ s ha (mt hport.mp h)
      exact ⟨_, _, hexec, fun h10 => absurd h10 (by decide), fun _ => ⟨decompose_of_length_ne h, rfl⟩⟩

/-! ### The normalizer -/

/-- The integer bit is clear exactly in the lower half of the mantissas (R60). -/
theorem integerBit_eq_zero_iff (m : BitVec 64) : integerBit m = 0#1 ↔ m.toNat < 2 ^ 63 := by
  rw [← BitVec.toNat_inj, integerBit_toNat, BitVec.toNat_ofNat]
  omega

theorem normalizeOperand_unnormal (e : BitVec 15) {m : BitVec 64} (hm : m.toNat < 2 ^ 63) :
    normalizeOperand e m = raise .unnormal :=
  if_pos ((integerBit_eq_zero_iff m).mpr hm)

theorem normalizeOperand_tooSmall {e : BitVec 15} {m : BitVec 64} (hm : 2 ^ 63 ≤ m.toNat) (he : e.toNat ≤ 15359) :
    normalizeOperand e m = raise .tooSmall := by
  have hb : integerBit m ≠ 0#1 := by rw [Ne, integerBit_eq_zero_iff]; omega
  have hd := eDouble_eq e
  rw [normalizeOperand, if_neg hb, if_pos (by omega)]

theorem normalizeOperand_tooLarge {e : BitVec 15} {m : BitVec 64} (hm : 2 ^ 63 ≤ m.toNat) (he : 17407 ≤ e.toNat) :
    normalizeOperand e m = raise .tooLarge := by
  have hb : integerBit m ≠ 0#1 := by rw [Ne, integerBit_eq_zero_iff]; omega
  have hd := eDouble_eq e
  rw [normalizeOperand, if_neg hb, if_neg (by omega), if_pos (by omega)]

/-- In range `e_double` is the exponent moved by the difference of the biases (R121). -/
theorem ofInt_eDouble {e : BitVec 15} (he : 15360 ≤ e.toNat) :
    BitVec.ofInt 11 (eDouble e) = BitVec.ofNat 11 (e.toNat - 15360) := by
  rw [eDouble_eq, ← BitVec.ofInt_natCast]
  exact congrArg _ (by omega)

/-- `mant52` is the slice `M[62:11]` (R124). -/
theorem mant52_eq_extractLsb' (m : BitVec 64) : mant52 m = m.extractLsb' 11 52 := by
  apply BitVec.eq_of_toNat_eq
  rw [mant52_toNat, BitVec.extractLsb'_toNat, Nat.shiftRight_eq_div_pow]
  omega

/-- The flag says whether a bit of `M[10:0]` is set (R125). -/
theorem precisionLost_eq_ofBool (m : BitVec 64) : precisionLost m = BitVec.ofBool (m.extractLsb' 0 11 != 0#11) := by
  by_cases h : m.extractLsb' 0 11 = 0#11
  · rw [precisionLost, discarded, if_pos h, h]; rfl
  · rw [precisionLost, discarded, if_neg h, bne_iff_ne.mpr h]; rfl

/-- A normalizer's ports on a fault: the fault's wire, and zeros. -/
theorem evalNormalizer_of_raise {e : BitVec 15} {m : BitVec 64} {c : Cause} (h : normalizeOperand e m = raise c) :
    evalNormalizer e m =
      ⟨e, m, faultWire .unnormal c, faultWire .tooSmall c, faultWire .tooLarge c, 0#11, 0#52, 0#1⟩ := by
  rw [evalNormalizer, h]
  rfl

/-- A normalizer's ports on success: no fault wire, and the result. -/
theorem evalNormalizer_of_ok {e : BitVec 15} {m : BitVec 64} {r : Normalized} (h : normalizeOperand e m = .ok r) :
    evalNormalizer e m = ⟨e, m, 0#1, 0#1, 0#1, r.expOut, r.mantOut, r.precisionLost⟩ := by
  rw [evalNormalizer, h]

/-- Settles O28: the integer bit, then the two bounds of the exponent, decide which outcome the ports show. -/
theorem normalizerPortsShowTheOutcome : Obligations.NormalizerPortsShowTheOutcome := by
  intro e m s
  rw [exec_normalize, State.normalize]
  refine ⟨fun hm => ?_, fun hm he => ?_, fun hm he => ?_, fun hm h0 h1 => ?_⟩
  · rw [evalNormalizer_of_raise (normalizeOperand_unnormal e hm)]; rfl
  · rw [evalNormalizer_of_raise (normalizeOperand_tooSmall hm he)]; rfl
  · rw [evalNormalizer_of_raise (normalizeOperand_tooLarge hm he)]; rfl
  · have hb : integerBit m = 1#1 := by
      rw [← BitVec.toNat_inj, integerBit_toNat, BitVec.toNat_ofNat]
      have := m.isLt
      omega
    rw [evalNormalizer_of_ok (normalizeOperand_of_range hb h0 h1), ofInt_eDouble h0, mant52_eq_extractLsb',
      precisionLost_eq_ofBool]

end Sys2Proof.Machine
end

section
/-! PROOFS. The converter at its ports: the wires inside (R29, R35), and the flag at the top level (R146). -/

namespace Sys2Proof.Machine

open Sys2Proof

/-! ### The wires of a request of ten bytes -/

/-- The double's fields, put together, are its pattern (R61). -/
theorem append_fields (f : FloatFields 11 52) : f.sign ++ f.exponent ++ f.mantissa = doublePattern f := by
  apply BitVec.eq_of_toNat_eq
  rw [doublePattern_toNat, append_toNat, append_toNat]
  omega

/-- The fields on the packer's inputs are those of the result, zeros on a fault included (R35, R174). -/
theorem append_packerInputs (v : Verdict (FloatFields 11 52 × BitVec 1)) :
    (packerInputs v).sign ++ (packerInputs v).exponent ++ (packerInputs v).mantissa =
      (Response.ofVerdict (v.bind fun r => .ok (doublePattern r.1, r.2))).result := by
  cases v with
  | ok r => exact append_fields r.1
  | fault k c => exact (by decide : 0#1 ++ 0#11 ++ 0#52 = 0#64)

/-- The wires of a request of ten bytes show the fields of its operand and what the blocks make of them (R29, R35). -/
theorem evalConverter_wires_show (r : Request) (h : r.inLen.toNat = 10) {f : FloatFields 15 64}
    (hf : f = unpack 15 64 (unsignedOf (portOrder r.byteOrder) (littleBytes 10 r.inData.toNat))) :
    (evalConverter r).wires.Show f (evalNormalizer f.exponent f.mantissa) (evalConverter r).response.result := by
  have hout : extractorOutputs 15 64 r.byteOrder r.inLen.toNat (littleBytes 10 r.inData.toNat) = (0#1, f) := by
    rw [hf]
    exact extractorOutputs_of_length _ _ h
  simp only [evalConverter, hout]
  exact
    { lenErr := rfl, sign := rfl, exponent := rfl, mantissa := rfl, cls := rfl, frac63 := rfl
      eDouble := eDouble_eq f.exponent, mant52 := mant52_eq_extractLsb' f.mantissa
      unnormal := rfl, tooSmall := rfl, tooLarge := rfl, expOut := rfl, mantOut := rfl, normLost := rfl
      packed := append_packerInputs _ }

/-- A request of ten bytes gets the outcome of `X2D` of its lanes, and the wires show each block's part of it. -/
theorem evalConverter_of_inLen (order : ByteOrder) (data : BitVec 80) (s : State) {c : Converter}
    (hc : c = evalConverter ⟨orderPort order, 10#8, data⟩) :
    ∃ (f : FloatFields 15 64) (n : Normalizer),
      c.response = Response.ofVerdict (x2d order (littleBytes 10 data.toNat)) ∧
      decompose order 15 64 (littleBytes 10 data.toNat) = .ok f ∧
      exec (.normalize f.exponent f.mantissa) s = .next { s with normalizer := n } ∧ c.wires.Show f n c.response.result := by
  subst hc
  refine ⟨_, _, ?_, decompose_of_length (littleBytes_length 10 _), exec_normalize _ _ s,
    evalConverter_wires_show _ rfl ?_⟩
  · rw [evalConverter_response_of_inLen _ rfl, portOrder_orderPort]
  · rw [portOrder_orderPort]

/-- Settles O45: both rows present ten bytes, each in its own order. -/
theorem requestsOfTenBytesAreConverted : Obligations.RequestsOfTenBytesAreConverted := by
  intro data s
  obtain ⟨f, n, hlittle⟩ := evalConverter_of_inLen .little data s rfl
  obtain ⟨g, k, hbig⟩ := evalConverter_of_inLen .big data s rfl
  exact ⟨⟨_, f, n, rfl, rfl, hlittle⟩, ⟨_, g, k, rfl, rfl, hbig⟩⟩

/-! ### The flag at the top level -/

/-- The flag of a response is 1 exactly when the outcome is a result with that flag; a fault has flag 0 (R174). -/
theorem ofVerdict_precisionLost_eq_one_iff (v : Verdict (BitVec 64 × BitVec 1)) :
    (Response.ofVerdict v).precisionLost = 1#1 ↔ ∃ d, v = .ok (d, 1#1) := by
  cases v with
  | ok r =>
    obtain ⟨d, l⟩ := r
    exact ⟨fun h => ⟨d, congrArg (fun l => Verdict.ok (d, l)) h⟩, by rintro ⟨_, h⟩; cases h; rfl⟩
  | fault k c => exact ⟨fun h => absurd h (by decide : (0#1 : BitVec 1) ≠ 1#1), by rintro ⟨_, h⟩; cases h⟩

/-- The `case` of `X2D` gives flag 1 only on the normal path, and there it is the normalizer's flag (R146). -/
theorem convertFields_flag_iff (f : FloatFields 15 64) :
    (∃ g, convertFields f = .ok (g, 1#1)) ↔ classify f.exponent f.mantissa = .normal ∧
      ∃ r, normalizeOperand f.exponent f.mantissa = .ok r ∧ r.precisionLost = 1#1 := by
  cases hclass : classify f.exponent f.mantissa with
  | normal =>
    simp only [convertFields, hclass, true_and]
    constructor
    · rintro ⟨g, h⟩
      obtain ⟨r, hr, h⟩ := Verdict.bind_eq_ok h
      injection h with h
      exact ⟨r, hr, (Prod.mk.inj h).2⟩
    · rintro ⟨r, hr, hflag⟩
      exact ⟨⟨f.sign, r.expOut, r.mantOut⟩, by rw [hr, Verdict.bind_ok, hflag]⟩
  | _ =>
    simp only [convertFields, hclass]
    constructor
    · rintro ⟨g, h⟩; cases h
    · rintro ⟨h, -⟩; cases h

/-- `X2D` gives flag 1 exactly when the buffer decomposes and the `case` on its fields gives flag 1 (R135). -/
theorem x2d_flag_iff (order : ByteOrder) (B : List Byte) :
    (∃ d, x2d order B = .ok (d, 1#1)) ↔
      ∃ f, decompose order 15 64 B = .ok f ∧ ∃ g, convertFields f = .ok (g, 1#1) := by
  constructor
  · rintro ⟨d, h⟩
    obtain ⟨f, hf, h⟩ := Verdict.bind_eq_ok h
    obtain ⟨⟨g, flag⟩, hg, h⟩ := Verdict.bind_eq_ok h
    injection h with h
    obtain rfl : flag = 1#1 := (Prod.mk.inj h).2
    exact ⟨f, hf, g, hg⟩
  · rintro ⟨f, hf, g, hg⟩
    obtain ⟨hlength, rfl⟩ := decompose_eq_ok hf
    exact ⟨doublePattern g, by rw [x2d_of_length hlength, hg, Verdict.bind_ok]⟩

/-- A successful normalization has flag 1 exactly when a dropped bit is set (R125). -/
theorem normalized_flag_iff {e : BitVec 15} {m : BitVec 64} {r : Normalized} (h : normalizeOperand e m = .ok r) :
    r.precisionLost = 1#1 ↔ m.extractLsb' 0 11 ≠ 0#11 := by
  obtain ⟨-, -, -, rfl⟩ := normalizeOperand_eq_ok h
  change precisionLost m = 1#1 ↔ _
  rw [precisionLost_eq_ofBool, ← bne_iff_ne]
  cases m.extractLsb' 0 11 != 0#11 <;> decide

/-- A response with flag 1 is a result, so its status is OK (R161). -/
theorem ofVerdict_status_of_flag {v : Verdict (BitVec 64 × BitVec 1)}
    (h : (Response.ofVerdict v).precisionLost = 1#1) : (Response.ofVerdict v).status = 0#2 := by
  obtain ⟨d, rfl⟩ := (ofVerdict_precisionLost_eq_one_iff v).mp h
  rfl

/-- Settles O51: the ports show `X2D`, and its flag is 1 only on the normal path, where it is the normalizer's. -/
theorem topLevelPrecisionLoss : Obligations.TopLevelPrecisionLoss := by
  intro order B
  rw [portsRefineTheFunction order B]
  constructor
  · intro hflag
    obtain ⟨f, hf, hconvert⟩ := (x2d_flag_iff order B).mp ((ofVerdict_precisionLost_eq_one_iff _).mp hflag)
    obtain ⟨hclass, r, hr, hlost⟩ := (convertFields_flag_iff f).mp hconvert
    exact ⟨f, hf, hclass, ⟨r, hr⟩, (normalized_flag_iff hr).mp hlost, ofVerdict_status_of_flag hflag⟩
  · rintro ⟨f, hf, hclass, ⟨r, hr⟩, hdropped, -⟩
    have hconvert := (convertFields_flag_iff f).mpr ⟨hclass, r, hr, (normalized_flag_iff hr).mpr hdropped⟩
    exact (ofVerdict_precisionLost_eq_one_iff _).mpr ((x2d_flag_iff order B).mpr ⟨f, hf, hconvert⟩)

end Sys2Proof.Machine
end

section
/-! PROOFS. Byte order: where it puts the bytes of a buffer and the fields of its operand (R42, R45), big order as the reversed
buffer (R44, R149), and the bytes of the output (R46). -/

namespace Sys2Proof.Machine

open Sys2Proof

/-! ### Byte `k` of a buffer -/

/-- Byte `k` of `Bytes(N, n, little)` is `N[8k+7:8k]` (R12). -/
theorem littleBytes_getElem? {n k : Nat} (N : Nat) (h : k < n) :
    (littleBytes n N)[k]? = some (BitVec.ofNat 8 (N / 256 ^ k)) := by
  induction n generalizing k N with
  | zero => omega
  | succ n ih =>
    cases k with
    | zero => simp [littleBytes]
    | succ k =>
      rw [littleBytes, List.getElem?_cons_succ, ih (N / 256) (by omega), Nat.div_div_eq_div_mul, ← pow_succ']

/-- In little order byte `k` of a buffer is bits `8k+7:8k` of what it spells (R42). -/
theorem getElem?_eq_littleValue_div {B : List Byte} {k : Nat} (h : k < B.length) :
    B[k]? = some (BitVec.ofNat 8 (littleValue B / 256 ^ k)) := by
  have hbyte := littleBytes_getElem? (littleValue B) h
  rwa [littleBytes_littleValue] at hbyte

/-- Settles O16: little order numbers the bytes from the front, and big order is little order of the reversed buffer. -/
theorem byteOrderPlacesTheBytes : Obligations.ByteOrderPlacesTheBytes := by
  intro B k hB hk
  refine ⟨getElem?_eq_littleValue_div (by omega), ?_⟩
  have hmirror : B.reverse[k]? = B[9 - k]? := by
    rw [List.getElem?_reverse (by omega), hB]
  have hk' : k < B.reverse.length := by rw [List.length_reverse]; omega
  rw [← hmirror, unsignedOf, bigValueFrom_zero_eq_littleValue_reverse]
  exact getElem?_eq_littleValue_div hk'

/-! ### Big order is the reversed buffer -/

/-- `DECOMPOSE` in big order is `DECOMPOSE` of the reversed buffer in little order, faults included (R44). -/
theorem decompose_big (ew mw : Nat) (B : List Byte) : decompose .big ew mw B = decompose .little ew mw B.reverse := by
  simp only [decompose, unsignedOf, List.length_reverse, bigValueFrom_zero_eq_littleValue_reverse]

/-- `X2D` in big order is `X2D` of the reversed buffer in little order, faults included (R44). -/
theorem x2d_big (B : List Byte) : x2d .big B = x2d .little B.reverse := by
  rw [x2d, decompose_big, x2d]

/-- The bytes of the number that ten lanes spell in big order are the lanes reversed. -/
theorem littleBytes_bigValueFrom {B : List Byte} (h : B.length = 10) :
    littleBytes 10 (BitVec.ofNat 80 (bigValueFrom 0 B)).toNat = B.reverse := by
  have hlen : B.reverse.length = 10 := by rw [List.length_reverse, h]
  have hlt : littleValue B.reverse < 2 ^ 80 := by simpa [hlen] using littleValue_lt B.reverse
  rw [BitVec.toNat_ofNat, bigValueFrom_zero_eq_littleValue_reverse, Nat.mod_eq_of_lt hlt, ← hlen,
    littleBytes_littleValue]

/-- Settles O48: reversing the bytes exchanges the two orders, in the function and on the lanes. -/
theorem conversionOrderDuality : Obligations.ConversionOrderDuality := by
  refine ⟨x2d_big, fun data s => ⟨_, _, rfl, rfl, ?_⟩⟩
  have hlanes := littleBytes_bigValueFrom (littleBytes_length 10 data.toNat)
  rw [State.convert_converter, State.convert_converter, evalConverter_response_of_inLen _ rfl,
    evalConverter_response_of_inLen _ rfl, hlanes]
  exact congrArg Response.ofVerdict (x2d_big _)

/-! ### The fields of ten bytes -/

/-- Ten bytes spell in little order the operand whose sign is the top bit of the last byte, whose exponent is the other 15 bits of
the last two, and whose mantissa is the first eight (R45, R60). -/
theorem littleValue_eq_x80 (b0 b1 b2 b3 b4 b5 b6 b7 b8 b9 : Byte) :
    littleValue [b0, b1, b2, b3, b4, b5, b6, b7, b8, b9] =
      (x80 (b9.extractLsb' 7 1) (b9.extractLsb' 0 7 ++ b8) (b7 ++ b6 ++ b5 ++ b4 ++ b3 ++ b2 ++ b1 ++ b0)).toNat := by
  have hb9 : b9.toNat = (b9.extractLsb' 7 1).toNat * 2 ^ 7 + (b9.extractLsb' 0 7).toNat := by
    have := b9.isLt
    rw [BitVec.extractLsb'_toNat, BitVec.extractLsb'_toNat, Nat.shiftRight_eq_div_pow, Nat.shiftRight_zero]
    omega
  simp only [x80_toNat, append_toNat, littleValue, hb9]
  ring

/-- The little column of R45's table. -/
theorem decompose_little_tenBytes (b0 b1 b2 b3 b4 b5 b6 b7 b8 b9 : Byte) :
    decompose .little 15 64 [b0, b1, b2, b3, b4, b5, b6, b7, b8, b9] =
      .ok ⟨b9.extractLsb' 7 1, b9.extractLsb' 0 7 ++ b8, b7 ++ b6 ++ b5 ++ b4 ++ b3 ++ b2 ++ b1 ++ b0⟩ := by
  rw [decompose_of_length rfl, unsignedOf, littleValue_eq_x80, unpack_x80]

/-- Settles O17: the big column is the little column of the reversed bytes. -/
theorem fieldsLieWhereTheTableSays : Obligations.FieldsLieWhereTheTableSays := by
  intro b0 b1 b2 b3 b4 b5 b6 b7 b8 b9
  refine ⟨decompose_little_tenBytes b0 b1 b2 b3 b4 b5 b6 b7 b8 b9, ?_⟩
  rw [decompose_big]
  exact decompose_little_tenBytes b9 b8 b7 b6 b5 b4 b3 b2 b1 b0

/-! ### The output buffer -/

/-- A buffer that decomposes to fields that convert is answered with OK, the flag, and the double's pattern (R135, R147). -/
theorem evalConverter_response_of_convertFields {order : ByteOrder} {B : List Byte} {g : FloatFields 15 64}
    {f : FloatFields 11 52} {lost : BitVec 1} (hg : decompose order 15 64 B = .ok g)
    (hf : convertFields g = .ok (f, lost)) :
    (evalConverter (presentBuffer order B)).response = ⟨0#2, 0#4, lost, doublePattern f⟩ := by
  obtain ⟨hlen, rfl⟩ := decompose_eq_ok hg
  rw [portsRefineTheFunction order B, x2d_of_length hlen, hf]
  rfl

/-- Byte `k` of the bytes of a vector is its slice `[8k+7:8k]`. -/
theorem littleBytes_toNat_getElem? {n k w : Nat} (x : BitVec w) (h : k < n) :
    (littleBytes n x.toNat)[k]? = some (x.extractLsb' (8 * k) 8) := by
  have hpow : 2 ^ (8 * k) = 256 ^ k := pow_mul 2 8 k
  rw [littleBytes_getElem? _ h, BitVec.extractLsb', Nat.shiftRight_eq_div_pow, hpow]

/-- Settles O53: the output buffer is the little-order bytes of the double's pattern, which is `{s, e, m}`. -/
theorem outputBytesAreLittleEndian : Obligations.OutputBytesAreLittleEndian := by
  intro order B f lost g k hg hf hk
  rw [evalConverter_response_of_convertFields hg hf, append_fields]
  exact ⟨_, rfl, littleBytes_toNat_getElem? _ hk⟩

end Sys2Proof.Machine
end

section
/-! PROOFS. Which faults the converter can deliver, and what its response carries with each (R147, R161, R162, R174). -/

namespace Sys2Proof.Machine

open Sys2Proof

/-! ### Every fault is raised: its kind is its cause's -/

/-- An outcome whose fault, if it is one, has the kind that R162 gives its cause. -/
def Verdict.KindOfCause {α : Type} (v : Verdict α) : Prop := ∀ k c, v = .fault k c → k = causeKind c

theorem Verdict.kindOfCause_ok {α : Type} (a : α) : (Verdict.ok a).KindOfCause := by
  intro k c h
  cases h

theorem raise_kindOfCause {α : Type} (c : Cause) : (raise c : Verdict α).KindOfCause := by
  intro k c' h
  cases h
  rfl

/-- Sequencing keeps it: the fault of a sequence is the fault of one of its parts (R14). -/
theorem Verdict.KindOfCause.bind {α β : Type} {x : Verdict α} {f : α → Verdict β} (hx : x.KindOfCause)
    (hf : ∀ a, (f a).KindOfCause) : (x.bind f).KindOfCause := by
  cases x with
  | ok a => exact hf a
  | fault k c =>
    intro k' c' h
    cases h
    exact hx k c rfl

theorem decompose_kindOfCause (order : ByteOrder) (ew mw : Nat) (B : List Byte) :
    (decompose order ew mw B).KindOfCause := by
  by_cases h : B.length = Config.byteCount ew mw
  · rw [decompose_of_length h]
    exact Verdict.kindOfCause_ok _
  · rw [decompose_of_length_ne h]
    exact raise_kindOfCause _

theorem normalizeOperand_kindOfCause (e : BitVec 15) (m : BitVec 64) : (normalizeOperand e m).KindOfCause :=
  fun _ _ h => (normalizeOperand_eq_fault h).1

theorem convertFields_kindOfCause (f : FloatFields 15 64) : (convertFields f).KindOfCause := by
  unfold convertFields
  cases classify f.exponent f.mantissa with
  | normal => exact (normalizeOperand_kindOfCause _ _).bind fun _ => Verdict.kindOfCause_ok _
  | denormal | pseudoDenormal | indefinite | quietNan => exact raise_kindOfCause _
  | zero | pseudoInf | pseudoNanLo | pseudoNanHi | inf | nan => exact Verdict.kindOfCause_ok _

theorem x2d_kindOfCause (order : ByteOrder) (B : List Byte) : (x2d order B).KindOfCause :=
  (decompose_kindOfCause order _ _ B).bind fun f => (convertFields_kindOfCause f).bind fun _ => Verdict.kindOfCause_ok _

/-! ### What a response carries -/

/-- A response is OK with a result and its flag, or the delivery of a fault that some cause raises (R147, R173). -/
theorem evalConverter_response_cases (q : Request) :
    (∃ lost d, (evalConverter q).response = ⟨0#2, 0#4, lost, d⟩) ∨
      ∃ c, (evalConverter q).response = Response.ofFault (causeKind c) c := by
  by_cases h : q.inLen.toNat = 10
  · rw [evalConverter_response_of_inLen q h]
    have hkind := x2d_kindOfCause (portOrder q.byteOrder) (littleBytes 10 q.inData.toNat)
    cases hv : x2d (portOrder q.byteOrder) (littleBytes 10 q.inData.toNat) with
    | ok r => exact .inl ⟨r.2, r.1, rfl⟩
    | fault k c =>
      obtain rfl := hkind k c hv
      exact .inr ⟨c, rfl⟩
  · exact .inr ⟨.invalidLength, evalConverter_response_of_inLen_ne q h⟩

/-- Each of the eight causes, delivered with its kind, shows one of the table's pairs of codes (R161, R162). -/
theorem ofFault_codes (c : Cause) :
    ((Response.ofFault (causeKind c) c).status.toNat, (Response.ofFault (causeKind c) c).cause.toNat) ∈
      [(0, 0), (1, 1), (2, 2), (2, 3), (2, 4), (3, 5), (3, 6), (3, 7), (3, 8)] := by
  cases c <;> decide

/-- No fault shows the code of OK (R161). -/
theorem ofFault_status_ne (k : FaultKind) (c : Cause) : (Response.ofFault k c).status ≠ 0#2 := by
  change statusCode k ≠ 0#2
  cases k <;> decide

/-- Below the codes of a fault `RSP` is zero (R64, R174). -/
theorem ofFault_bits_low (k : FaultKind) (c : Cause) : (Response.ofFault k c).bits.extractLsb' 0 65 = 0#65 := by
  cases k <;> cases c <;> decide

/-- Settles O52: an OK response has the eight bytes of its result, and a fault has its cause's codes above zeros. -/
theorem responsesCarryOneFaultAndZeros : Obligations.ResponsesCarryOneFaultAndZeros := by
  rintro q r rfl
  obtain ⟨lost, d, h⟩ | ⟨c, h⟩ := evalConverter_response_cases q
  · rw [h]
    exact ⟨List.mem_cons_self, fun hne => absurd rfl hne, fun _ => ⟨_, rfl, littleBytes_length 8 _⟩⟩
  · rw [h]
    have hne := ofFault_status_ne (causeKind c) c
    exact ⟨ofFault_codes c, fun _ => ⟨ofFault_bits_low _ c, if_neg hne⟩, fun h0 => absurd h0 hne⟩

end Sys2Proof.Machine
end

section
/-! PROOFS. A caller whose words all decode is never stopped (R73, R173). -/

namespace Sys2Proof.Machine

open Sys2Proof

/-- A step of a well-presented state completes, idly or by running the first word, and what is left to present still decodes. -/
theorem step_wellPresented {s : State} (h : s.wellPresented = true) :
    ∃ t, step s = .next t ∧ t.wellPresented = true := by
  cases hp : s.pending with
  | nil => exact ⟨s.settle, step_of_pending_nil hp, h⟩
  | cons w ws =>
    rw [State.wellPresented, hp, List.all_cons, Bool.and_eq_true] at h
    obtain ⟨hw, hws⟩ := h
    obtain ⟨t, hstep, ht⟩ := step_completes hp hw
    exact ⟨t, hstep, by rwa [State.wellPresented, ht]⟩

/-- Settles O60: by induction on the number of steps, each of which completes and keeps the property. -/
theorem wellPresentedProgramsNeverStop : Obligations.WellPresentedProgramsNeverStop := by
  intro k
  induction k with
  | zero => exact fun s h => ⟨s, rfl, h⟩
  | succ k ih =>
    intro s h
    obtain ⟨t, hstep, ht⟩ := step_wellPresented h
    rw [run_succ_of_step hstep]
    exact ih t ht

end Sys2Proof.Machine
end

section
/-! PROOFS. What each format's word decodes to, from the number on its port; the decode is total on operands and requests
(R70, R73); requests and operands are their fields put together (R60, R63). -/

namespace Sys2Proof.Machine

open Sys2Proof

/-! ### The number on a port and its bytes -/

/-- A port accepts the bytes of every number its wires can carry, and reads that number. -/
theorem portBits_of_lt {size bits : Nat} {B : List Byte} (hl : B.length = size) (h : littleValue B < 2 ^ bits) :
    portBits size bits B = .ok (littleValue B) := by
  rw [portBits, if_neg (not_not.mpr hl), if_pos h]

/-- The bytes of the number a port read are the bytes it was presented in. -/
theorem littleBytes_of_portBits {size bits : Nat} {B : List Byte} {N : Nat} (h : portBits size bits B = .ok N) :
    littleBytes size N = B := by
  obtain ⟨rfl, rfl, -⟩ := portBits_eq_ok h
  exact littleBytes_littleValue B

/-- The vector of a number its port accepts is that number. -/
theorem ofNat_toNat_of_portBits {size bits : Nat} {B : List Byte} {N : Nat} (h : portBits size bits B = .ok N) :
    (BitVec.ofNat bits N).toNat = N := by
  obtain ⟨-, -, hlt⟩ := portBits_eq_ok h
  rw [BitVec.toNat_ofNat, Nat.mod_eq_of_lt hlt]

/-- The bytes of a vector that its port accepts are those of the number read. -/
theorem littleBytes_toNat_of_portBits {size bits : Nat} {B : List Byte} {N : Nat} (h : portBits size bits B = .ok N) :
    littleBytes size (BitVec.ofNat bits N).toNat = B := by
  rw [ofNat_toNat_of_portBits h, littleBytes_of_portBits h]

/-- A port that can carry every vector of a width reads the vector from its bytes. -/
theorem portBits_toNat {size bits : Nat} (x : BitVec bits) (h : 2 ^ bits ≤ 256 ^ size) :
    portBits size bits (littleBytes size x.toNat) = .ok x.toNat :=
  portBits_littleBytes x.isLt (x.isLt.trans_le h)

/-! ### What each format's word decodes to, from the number on its port -/

/-- After an accepted check the decoder goes on with its number. -/
theorem exceptBind_of_ok {ε α β : Type} {x : Except ε α} {a : α} (h : x = .ok a) (f : α → Except ε β) :
    (x >>= f) = f a := by
  rw [h]; rfl

section formats
variable {B : List Byte} {N : Nat}

theorem decode_req (h : portBits 12 89 B = .ok N) : decode ⟨.req, B⟩ = .ok (decodeReq (BitVec.ofNat 89 N)) :=
  exceptBind_of_ok h _

theorem decode_x80Class (h : portBits 10 80 B = .ok N) :
    decode ⟨.x80Class, B⟩ = .ok (decodeClass (BitVec.ofNat 80 N)) :=
  exceptBind_of_ok h _

theorem decode_x80Operand (h : portBits 10 80 B = .ok N) :
    decode ⟨.x80Operand, B⟩ = .ok (decodeOperand (BitVec.ofNat 80 N)) :=
  exceptBind_of_ok h _

theorem decode_classifier (h : portBits 10 79 B = .ok N) :
    decode ⟨.classifier, B⟩ = .ok (.classify (BitVec.ofNat 15 (N >>> 64)) (BitVec.ofNat 64 N)) :=
  exceptBind_of_ok h _

theorem decode_normalizer (h : portBits 10 79 B = .ok N) :
    decode ⟨.normalizer, B⟩ = .ok (.normalize (BitVec.ofNat 15 (N >>> 64)) (BitVec.ofNat 64 N)) :=
  exceptBind_of_ok h _

end formats

/-- A word that decodes stands for some operation. -/
theorem decodes_of_decode {w : Word} {i : Instr} (h : decode w = .ok i) : decodes w = true := by
  simp only [decodes, h]

/-- Settles O10: ten bytes spell less than `2^80`, so an operand's port accepts all of them. -/
theorem everyOperandAndRequestDecodes : Obligations.EveryOperandAndRequestDecodes := by
  constructor
  · intro B hl
    have hlt : littleValue B < 2 ^ 80 := by simpa [hl] using littleValue_lt B
    have hport := portBits_of_lt hl hlt
    exact ⟨decodes_of_decode (decode_x80Class hport), decodes_of_decode (decode_x80Operand hport)⟩
  · intro B hl hlt
    exact decodes_of_decode (decode_req (portBits_of_lt hl hlt))

/-! ### The words of the encoder -/

theorem decode_classWord (n : BitVec 80) : decode (classWord n) = .ok (decodeClass n) := by
  rw [classWord, decode_x80Class (portBits_toNat n (by norm_num)), BitVec.ofNat_toNat, BitVec.setWidth_eq]

theorem decode_operandWord (n : BitVec 80) : decode (operandWord n) = .ok (decodeOperand n) := by
  rw [operandWord, decode_x80Operand (portBits_toNat n (by norm_num)), BitVec.ofNat_toNat, BitVec.setWidth_eq]

theorem decode_reqWord (o : BitVec 1) (len : BitVec 8) (data : BitVec 80) :
    decode (reqWord o len data) = .ok (decodeReq (o ++ len ++ data)) := by
  rw [reqWord, decode_req (portBits_toNat (o ++ len ++ data) (by norm_num)), BitVec.ofNat_toNat, BitVec.setWidth_eq]

/-! ### Requests (R63) -/

/-- The fields of an assembled request are the ones it was assembled from (R63). -/
theorem reqFields_append (o : BitVec 1) (len : BitVec 8) (data : BitVec 80) :
    (o ++ len ++ data : BitVec 89).extractLsb' 88 1 = o ∧ (o ++ len ++ data : BitVec 89).extractLsb' 80 8 = len ∧
      (o ++ len ++ data : BitVec 89).extractLsb' 0 80 = data := by
  have hN : (o ++ len ++ data : BitVec 89).toNat = (o.toNat * 2 ^ 8 + len.toNat) * 2 ^ 80 + data.toNat :=
    (append_toNat (o ++ len) data).trans (congrArg (fun k => k * 2 ^ 80 + data.toNat) (append_toNat o len))
  have := o.isLt; have := len.isLt; have := data.isLt
  refine ⟨?_, ?_, ?_⟩
  all_goals
    apply BitVec.eq_of_toNat_eq
    rw [BitVec.extractLsb'_toNat, hN, Nat.shiftRight_eq_div_pow]
    omega

/-- A request is its fields put together (R63). -/
theorem append_reqFields (v : BitVec 89) : v.extractLsb' 88 1 ++ v.extractLsb' 80 8 ++ v.extractLsb' 0 80 = v := by
  rw [BitVec.extractLsb'_append_extractLsb'_eq_extractLsb' (rfl : 88 = 80 + 8),
    BitVec.extractLsb'_append_extractLsb'_eq_extractLsb' (rfl : 80 = 0 + 80)]
  exact BitVec.extractLsb'_eq_self

/-- A request reads as the row of its length and order (R70, R71). -/
theorem decodeReq_append (o : BitVec 1) (len : BitVec 8) (data : BitVec 80) :
    decodeReq (o ++ len ++ data) =
      if len = 10#8 then if o = 0#1 then .x2dLe data else .x2dBe data else .x2dIllegalLength o len data := by
  obtain ⟨ho, hlen, hdata⟩ := reqFields_append o len data
  rw [decodeReq, ho, hlen, hdata]

/-- What a request reads as is well formed and is presented by it. -/
theorem encode_decodeReq (v : BitVec 89) :
    (decodeReq v).wellFormed = true ∧ encode (decodeReq v) = ⟨.req, littleBytes 12 v.toNat⟩ := by
  have hv := append_reqFields v
  generalize v.extractLsb' 88 1 = o, v.extractLsb' 80 8 = len, v.extractLsb' 0 80 = data at hv
  subst hv
  rw [decodeReq_append]
  split
  · next hlen =>
    subst hlen
    split
    · next ho => subst ho; exact ⟨rfl, rfl⟩
    · next ho =>
      obtain rfl := (BitVec.eq_zero_or_eq_one o).resolve_left ho
      exact ⟨rfl, rfl⟩
  · next hlen => exact ⟨bne_iff_ne.mpr hlen, rfl⟩

/-! ### Operands (R60): an operand is its fields put together -/

theorem x80_fields (n : BitVec 80) : x80 (x80Sign n) (x80Exponent n) (x80Mantissa n) = n := by
  rw [x80, x80Sign, x80Exponent, x80Mantissa,
    BitVec.extractLsb'_append_extractLsb'_eq_extractLsb' (rfl : 79 = 64 + 15),
    BitVec.extractLsb'_append_extractLsb'_eq_extractLsb' (rfl : 64 = 0 + 64)]
  exact BitVec.extractLsb'_eq_self

theorem integerBit_append_frac63 (m : BitVec 64) : integerBit m ++ frac63 m = m := by
  rw [integerBit, frac63, BitVec.extractLsb'_append_extractLsb'_eq_extractLsb' (rfl : 63 = 0 + 63)]
  exact BitVec.extractLsb'_eq_self

theorem selector_append_low62 (m : BitVec 64) : selector m ++ low62 m = m := by
  rw [selector, low62, BitVec.extractLsb'_append_extractLsb'_eq_extractLsb' (rfl : 62 = 0 + 62)]
  exact BitVec.extractLsb'_eq_self

/-- An operand with these fields is put together from its sign and them. -/
theorem x80_eq_of_fields {n : BitVec 80} {e : BitVec 15} {m : BitVec 64} (he : x80Exponent n = e)
    (hm : x80Mantissa n = m) : x80 (x80Sign n) e m = n := by
  rw [← he, ← hm, x80_fields]

/-- A mantissa with these two parts is put together from them. -/
theorem eq_append_of_integerBit {m : BitVec 64} {b : BitVec 1} {f : BitVec 63} (hb : integerBit m = b)
    (hf : frac63 m = f) : m = b ++ f := by
  rw [← hb, ← hf, integerBit_append_frac63]

theorem eq_append_of_selector {m : BitVec 64} {t : BitVec 2} {l : BitVec 62} (ht : selector m = t) (hl : low62 m = l) :
    m = t ++ l := by
  rw [← ht, ← hl, selector_append_low62]

theorem selector_cases (t : BitVec 2) : t = 0b00#2 ∨ t = 0b01#2 ∨ t = 0b10#2 ∨ t = 0b11#2 := by
  revert t; decide

end Sys2Proof.Machine
end

section
/-! PROOFS. The operand decoder, row by row: an operand with a row's fields reads as the row, and what an operand reads as is
presented by it (R70). -/

namespace Sys2Proof.Machine

open Sys2Proof

/-- The exponent ranges of the table's constraints are two comparisons. -/
theorem range_iff {p q : Prop} [Decidable p] [Decidable q] : (decide p && decide q) = true ↔ p ∧ q := by
  rw [← Bool.decide_and, decide_eq_true_eq]

/-! ### What an operand reads as, by its fields -/

section fields
variable {n : BitVec 80}

theorem decodeClass_zero (he : x80Exponent n = 0#15) (hm : x80Mantissa n = 0#64) :
    decodeClass n = .classZero (x80Sign n) := by
  have hb : integerBit 0#64 ≠ 1#1 := by decide
  have hf : frac63 0#64 = 0#63 := by decide
  simp only [decodeClass, he, hm, hf, if_neg hb, if_true]

theorem decodeClass_denormal (he : x80Exponent n = 0#15) (hb : integerBit (x80Mantissa n) = 0#1)
    (hf : frac63 (x80Mantissa n) ≠ 0#63) : decodeClass n = .classDenormal (x80Sign n) (frac63 (x80Mantissa n)) := by
  have hb1 : integerBit (x80Mantissa n) ≠ 1#1 := by rw [hb]; decide
  rw [decodeClass, if_pos he, if_neg hb1, if_neg hf]

theorem decodeClass_pseudoDenormal (he : x80Exponent n = 0#15) (hb : integerBit (x80Mantissa n) = 1#1) :
    decodeClass n = .classPseudoDenormal (x80Sign n) (frac63 (x80Mantissa n)) := by
  rw [decodeClass, if_pos he, if_pos hb]

/-- With `E = 32767` the selector and the low bits decide (R70). -/
theorem decodeClass_special (he : x80Exponent n = 32767#15) {t : BitVec 2} {l : BitVec 62}
    (ht : selector (x80Mantissa n) = t) (hl : low62 (x80Mantissa n) = l) :
    decodeClass n =
      if t = 0b00#2 then if l = 0#62 then .classPseudoInf (x80Sign n) else .classPseudoNanLo (x80Sign n) l
      else if t = 0b01#2 then .classPseudoNanHi (x80Sign n) l
      else if t = 0b10#2 then if l = 0#62 then .classInf (x80Sign n) else .classNan (x80Sign n) l
      else if l = 0#62 then .classIndefinite (x80Sign n) else .classQuietNan (x80Sign n) l := by
  have he0 : x80Exponent n ≠ 0#15 := by rw [he]; decide
  rw [decodeClass, if_neg he0, if_pos he, ht, hl]

theorem decodeClass_pseudoInf (he : x80Exponent n = 32767#15) (hm : x80Mantissa n = 0#64) :
    decodeClass n = .classPseudoInf (x80Sign n) :=
  decodeClass_special he (congrArg selector hm) (congrArg low62 hm)

theorem decodeClass_pseudoNanLo (he : x80Exponent n = 32767#15) (ht : selector (x80Mantissa n) = 0b00#2)
    (hl : low62 (x80Mantissa n) ≠ 0#62) : decodeClass n = .classPseudoNanLo (x80Sign n) (low62 (x80Mantissa n)) :=
  (decodeClass_special he ht rfl).trans (if_neg hl)

theorem decodeClass_pseudoNanHi (he : x80Exponent n = 32767#15) (ht : selector (x80Mantissa n) = 0b01#2) :
    decodeClass n = .classPseudoNanHi (x80Sign n) (low62 (x80Mantissa n)) :=
  decodeClass_special he ht rfl

theorem decodeClass_inf (he : x80Exponent n = 32767#15) (hm : x80Mantissa n = 0b10#2 ++ 0#62) :
    decodeClass n = .classInf (x80Sign n) :=
  decodeClass_special he (congrArg selector hm) (congrArg low62 hm)

theorem decodeClass_nan (he : x80Exponent n = 32767#15) (ht : selector (x80Mantissa n) = 0b10#2)
    (hl : low62 (x80Mantissa n) ≠ 0#62) : decodeClass n = .classNan (x80Sign n) (low62 (x80Mantissa n)) :=
  (decodeClass_special he ht rfl).trans (if_neg hl)

theorem decodeClass_indefinite (he : x80Exponent n = 32767#15) (hm : x80Mantissa n = 0b11#2 ++ 0#62) :
    decodeClass n = .classIndefinite (x80Sign n) :=
  decodeClass_special he (congrArg selector hm) (congrArg low62 hm)

theorem decodeClass_quietNan (he : x80Exponent n = 32767#15) (ht : selector (x80Mantissa n) = 0b11#2)
    (hl : low62 (x80Mantissa n) ≠ 0#62) : decodeClass n = .classQuietNan (x80Sign n) (low62 (x80Mantissa n)) :=
  (decodeClass_special he ht rfl).trans (if_neg hl)

/-- An exponent strictly between the two special ones is neither of them. -/
theorem exponent_ne_of_between {e : BitVec 15} (h0 : 0 < e.toNat) (h1 : e.toNat < 32767) : e ≠ 0#15 ∧ e ≠ 32767#15 :=
  ⟨by rintro rfl; simp at h0, by rintro rfl; simp at h1⟩

/-- An exponent that is neither of the special ones is strictly between them. -/
theorem exponent_between_of_ne {e : BitVec 15} (h0 : e ≠ 0#15) (h1 : e ≠ 32767#15) : 0 < e.toNat ∧ e.toNat < 32767 := by
  rw [Ne, ← BitVec.toNat_inj, BitVec.toNat_ofNat] at h0 h1
  have := e.isLt
  omega

theorem decodeClass_normal (h0 : 0 < (x80Exponent n).toNat) (h1 : (x80Exponent n).toNat < 32767) :
    decodeClass n = .classNormal (x80Sign n) (x80Exponent n) (x80Mantissa n) := by
  obtain ⟨hz, hi⟩ := exponent_ne_of_between h0 h1
  rw [decodeClass, if_neg hz, if_neg hi]

/-- Outside class `NORMAL` the normalizer's rows are not looked at (R70). -/
theorem decodeOperand_special (he : x80Exponent n = 0#15 ∨ x80Exponent n = 32767#15) :
    decodeOperand n = decodeClass n := by
  rw [decodeOperand, if_pos he]

theorem decodeOperand_unnormal (h0 : 0 < (x80Exponent n).toNat) (h1 : (x80Exponent n).toNat < 32767)
    (hb : integerBit (x80Mantissa n) = 0#1) :
    decodeOperand n = .normalizeUnnormal (x80Sign n) (x80Exponent n) (frac63 (x80Mantissa n)) := by
  obtain ⟨hz, hi⟩ := exponent_ne_of_between h0 h1
  rw [decodeOperand, if_neg (not_or_intro hz hi), if_pos hb]

/-- In class `NORMAL` with the integer bit set the exponent decides (R127). -/
theorem decodeOperand_normalized (h0 : 0 < (x80Exponent n).toNat) (h1 : (x80Exponent n).toNat < 32767)
    (hb : integerBit (x80Mantissa n) = 1#1) :
    decodeOperand n =
      if (x80Exponent n).toNat ≤ 15359 then
        .normalizeTooSmall (x80Sign n) (x80Exponent n) (frac63 (x80Mantissa n))
      else if 17407 ≤ (x80Exponent n).toNat then
        .normalizeTooLarge (x80Sign n) (x80Exponent n) (frac63 (x80Mantissa n))
      else .normalizeOk (x80Sign n) (x80Exponent n) (frac63 (x80Mantissa n)) := by
  have hb0 : integerBit (x80Mantissa n) ≠ 0#1 := by rw [hb]; decide
  obtain ⟨hz, hi⟩ := exponent_ne_of_between h0 h1
  rw [decodeOperand, if_neg (not_or_intro hz hi), if_neg hb0]

end fields

/-! ### Each row's operand reads as the row -/

section operands
variable (s : BitVec 1)

theorem decodeClass_zeroOperand : decodeClass (zeroOperand s) = .classZero s := by
  simp [zeroOperand, decodeClass_zero]

theorem decodeClass_denormalOperand {frac : BitVec 63} (h : frac ≠ 0#63) :
    decodeClass (denormalOperand s frac) = .classDenormal s frac := by
  simp [denormalOperand, decodeClass_denormal, h]

theorem decodeClass_pseudoDenormalOperand (frac : BitVec 63) :
    decodeClass (pseudoDenormalOperand s frac) = .classPseudoDenormal s frac := by
  simp [pseudoDenormalOperand, decodeClass_pseudoDenormal]

theorem decodeClass_pseudoInfOperand : decodeClass (pseudoInfOperand s) = .classPseudoInf s := by
  simp [pseudoInfOperand, decodeClass_pseudoInf]

theorem decodeClass_pseudoNanLoOperand {low : BitVec 62} (h : low ≠ 0#62) :
    decodeClass (pseudoNanLoOperand s low) = .classPseudoNanLo s low := by
  simp [pseudoNanLoOperand, decodeClass_pseudoNanLo, h]

theorem decodeClass_pseudoNanHiOperand (low : BitVec 62) :
    decodeClass (pseudoNanHiOperand s low) = .classPseudoNanHi s low := by
  simp [pseudoNanHiOperand, decodeClass_pseudoNanHi]

theorem decodeClass_infOperand : decodeClass (infOperand s) = .classInf s := by
  simp [infOperand, decodeClass_inf]

theorem decodeClass_nanOperand {low : BitVec 62} (h : low ≠ 0#62) :
    decodeClass (nanOperand s low) = .classNan s low := by
  simp [nanOperand, decodeClass_nan, h]

theorem decodeClass_indefiniteOperand : decodeClass (indefiniteOperand s) = .classIndefinite s := by
  simp [indefiniteOperand, decodeClass_indefinite]

theorem decodeClass_quietNanOperand {low : BitVec 62} (h : low ≠ 0#62) :
    decodeClass (quietNanOperand s low) = .classQuietNan s low := by
  simp [quietNanOperand, decodeClass_quietNan, h]

theorem decodeClass_x80 {e : BitVec 15} (m : BitVec 64) (h0 : 0 < e.toNat) (h1 : e.toNat < 32767) :
    decodeClass (x80 s e m) = .classNormal s e m := by
  simp [decodeClass_normal, h0, h1]

theorem decodeOperand_unnormalOperand {e : BitVec 15} (frac : BitVec 63) (h0 : 0 < e.toNat) (h1 : e.toNat < 32767) :
    decodeOperand (unnormalOperand s e frac) = .normalizeUnnormal s e frac := by
  simp [unnormalOperand, decodeOperand_unnormal, h0, h1]

theorem decodeOperand_normalizedOperand {e : BitVec 15} (frac : BitVec 63) (h0 : 0 < e.toNat) (h1 : e.toNat < 32767) :
    decodeOperand (normalizedOperand s e frac) =
      if e.toNat ≤ 15359 then .normalizeTooSmall s e frac
      else if 17407 ≤ e.toNat then .normalizeTooLarge s e frac
      else .normalizeOk s e frac := by
  simp [normalizedOperand, decodeOperand_normalized, h0, h1]

end operands

/-! ### What an operand reads as is presented by it -/

/-- The class row of an operand is well formed, and its operand is the one that was read (R70). -/
theorem encode_decodeClass (n : BitVec 80) :
    (decodeClass n).wellFormed = true ∧ encode (decodeClass n) = classWord n := by
  have whole {e m} (he : x80Exponent n = e) (hm : x80Mantissa n = m) : classWord (x80 (x80Sign n) e m) = classWord n :=
    congrArg classWord (x80_eq_of_fields he hm)
  by_cases he0 : x80Exponent n = 0#15
  · obtain hb | hb := BitVec.eq_zero_or_eq_one (integerBit (x80Mantissa n))
    · by_cases hf : frac63 (x80Mantissa n) = 0#63
      · have hm : x80Mantissa n = 0#64 := eq_append_of_integerBit hb hf
        rw [decodeClass_zero he0 hm]
        exact ⟨rfl, whole he0 hm⟩
      · rw [decodeClass_denormal he0 hb hf]
        exact ⟨bne_iff_ne.mpr hf, whole he0 (eq_append_of_integerBit hb rfl)⟩
    · rw [decodeClass_pseudoDenormal he0 hb]
      exact ⟨rfl, whole he0 (eq_append_of_integerBit hb rfl)⟩
  by_cases he1 : x80Exponent n = 32767#15
  · obtain ht | ht | ht | ht := selector_cases (selector (x80Mantissa n))
    · by_cases hl : low62 (x80Mantissa n) = 0#62
      · have hm : x80Mantissa n = 0#64 := eq_append_of_selector ht hl
        rw [decodeClass_pseudoInf he1 hm]
        exact ⟨rfl, whole he1 hm⟩
      · rw [decodeClass_pseudoNanLo he1 ht hl]
        exact ⟨bne_iff_ne.mpr hl, whole he1 (eq_append_of_selector ht rfl)⟩
    · rw [decodeClass_pseudoNanHi he1 ht]
      exact ⟨rfl, whole he1 (eq_append_of_selector ht rfl)⟩
    · by_cases hl : low62 (x80Mantissa n) = 0#62
      · have hm := eq_append_of_selector ht hl
        rw [decodeClass_inf he1 hm]
        exact ⟨rfl, whole he1 hm⟩
      · rw [decodeClass_nan he1 ht hl]
        exact ⟨bne_iff_ne.mpr hl, whole he1 (eq_append_of_selector ht rfl)⟩
    · by_cases hl : low62 (x80Mantissa n) = 0#62
      · have hm := eq_append_of_selector ht hl
        rw [decodeClass_indefinite he1 hm]
        exact ⟨rfl, whole he1 hm⟩
      · rw [decodeClass_quietNan he1 ht hl]
        exact ⟨bne_iff_ne.mpr hl, whole he1 (eq_append_of_selector ht rfl)⟩
  · obtain ⟨h0, h1⟩ := exponent_between_of_ne he0 he1
    rw [decodeClass_normal h0 h1]
    exact ⟨range_iff.mpr ⟨h0, h1⟩, whole rfl rfl⟩

/-- The same for the row of an operand followed to the normalizer, up to the format: outside class `NORMAL` the row is a class
row (R70, R127). -/
theorem encode_decodeOperand (n : BitVec 80) :
    (decodeOperand n).wellFormed = true ∧ (encode (decodeOperand n)).bytes = littleBytes 10 n.toNat := by
  by_cases he : x80Exponent n = 0#15 ∨ x80Exponent n = 32767#15
  · obtain ⟨hwf, hword⟩ := encode_decodeClass n
    rw [decodeOperand_special he]
    exact ⟨hwf, congrArg Word.bytes hword⟩
  obtain ⟨he0, he1⟩ := not_or.mp he
  obtain ⟨h0, h1⟩ := exponent_between_of_ne he0 he1
  have whole {b} (hb : integerBit (x80Mantissa n) = b) :
      littleBytes 10 (x80 (x80Sign n) (x80Exponent n) (b ++ frac63 (x80Mantissa n))).toNat = littleBytes 10 n.toNat := by
    rw [x80_eq_of_fields rfl (eq_append_of_integerBit hb rfl)]
  obtain hb | hb := BitVec.eq_zero_or_eq_one (integerBit (x80Mantissa n))
  · rw [decodeOperand_unnormal h0 h1 hb]
    exact ⟨range_iff.mpr ⟨h0, h1⟩, whole hb⟩
  · rw [decodeOperand_normalized h0 h1 hb]
    split
    · next hs => exact ⟨range_iff.mpr (by omega), whole hb⟩
    · split
      · next hl => exact ⟨range_iff.mpr (by omega), whole hb⟩
      · next hl => exact ⟨range_iff.mpr (by omega), whole hb⟩

end Sys2Proof.Machine
end

section
/-! PROOFS. Decode of encode, and encode of decode, of every instruction: the words of the codec's, the classifier's and
the normalizer's own ports, and then all rows together (R60, R62, R63, R70; the `PORT` layouts are log 2's). -/

namespace Sys2Proof.Machine

open Sys2Proof

/-! ### The codec's fields and their integer (R66, R67) -/

/-- Packed fields fit in as many bits as the fields have. -/
theorem packed_lt {ew mw : Nat} (f : FloatFields ew mw) : packed f < 2 ^ (1 + ew + mw) := by
  have hs := f.sign.isLt
  have he := f.exponent.isLt
  have hm := f.mantissa.isLt
  rw [packed_eq]
  calc _ < 2 ^ (ew + mw) * (f.sign.toNat + 1) := by rw [pow_add]; nlinarith
    _ ≤ _ := by rw [add_assoc, add_comm 1, pow_succ]; gcongr; omega

/-- The fields cut out of packed fields are the fields. -/
theorem unpack_packed {ew mw : Nat} (f : FloatFields ew mw) : unpack ew mw (packed f) = f := by
  obtain ⟨hsign, hexp, hmant⟩ := unpack_toNat ew mw (packed f)
  have he := f.exponent.isLt
  have hm := f.mantissa.isLt
  have hN : packed f = 2 ^ mw * (2 ^ ew * f.sign.toNat + f.exponent.toNat) + f.mantissa.toNat := by
    rw [packed_eq, pow_add]; ring
  have hhigh : packed f / 2 ^ mw = 2 ^ ew * f.sign.toNat + f.exponent.toNat := by
    rw [hN, Nat.mul_add_div (Nat.two_pow_pos mw), Nat.div_eq_of_lt hm, add_zero]
  apply fields_eq_of_toNat
  · rw [hsign, pow_add, ← Nat.div_div_eq_div_mul, hhigh, Nat.mul_add_div (Nat.two_pow_pos ew), Nat.div_eq_of_lt he, add_zero]
    exact Nat.mod_eq_of_lt f.sign.isLt
  · rw [hexp, hhigh, Nat.mul_add_mod, Nat.mod_eq_of_lt he]
  · rw [hmant, hN, Nat.mul_add_mod, Nat.mod_eq_of_lt hm]

/-- An integer that the fields can hold is the one its fields pack. -/
theorem packed_unpack {ew mw N : Nat} (h : N < 2 ^ (1 + ew + mw)) : packed (unpack ew mw N) = N := by
  obtain ⟨hsign, hexp, hmant⟩ := unpack_toNat ew mw N
  have hlt : N / 2 ^ (mw + ew) < 2 := by
    rw [Nat.div_lt_iff_lt_mul (Nat.two_pow_pos _), ← pow_succ']
    exact h.trans_eq (by congr 1; omega)
  have hhigh : N / 2 ^ mw = 2 ^ ew * (N / 2 ^ (mw + ew)) + N / 2 ^ mw % 2 ^ ew := by
    rw [pow_add, ← Nat.div_div_eq_div_mul, Nat.div_add_mod]
  calc packed (unpack ew mw N)
      = N / 2 ^ (mw + ew) * 2 ^ (ew + mw) + N / 2 ^ mw % 2 ^ ew * 2 ^ mw + N % 2 ^ mw := by
        rw [packed_eq, hsign, hexp, hmant, Nat.mod_eq_of_lt hlt]
    _ = 2 ^ mw * (2 ^ ew * (N / 2 ^ (mw + ew)) + N / 2 ^ mw % 2 ^ ew) + N % 2 ^ mw := by rw [pow_add 2 ew]; ring
    _ = N := by rw [← hhigh, Nat.div_add_mod]

/-! ### The byte order's byte (R43) -/

@[simp] theorem orderByte_byteOfOrder (o : ByteOrder) : orderByte (byteOfOrder o) = .ok o := by
  cases o <;> rfl

theorem byteOfOrder_of_orderByte {b : Byte} {o : ByteOrder} (h : orderByte b = .ok o) : byteOfOrder o = b := by
  unfold orderByte at h
  split_ifs at h with h0 h1
  · cases h; exact h0.symm
  · cases h; exact h1.symm

/-! ### The words of the codec -/

theorem decode_extractorWord {ew mw : Nat} (ha : Config.admitted ew mw = true) (order : ByteOrder)
    (b : BufferPorts ew mw) : decode (encode (.decompose order ew mw b)) = .ok (.decompose order ew mw b) := by
  have hpow : 2 ^ (8 * Config.byteCount ew mw) ≤ 256 ^ Config.byteCount ew mw := (pow_mul 2 8 _).le
  rw [encode, decode_extractor ha, decodeExtractor, exceptBind_of_ok (portBits_toNat b.data hpow),
    exceptBind_of_ok (orderByte_byteOfOrder order), BitVec.ofNat_toNat, BitVec.setWidth_eq]
  rfl

theorem decode_packerWord {ew mw : Nat} (ha : Config.admitted ew mw = true) (order : ByteOrder)
    (f : FloatFields ew mw) : decode (encode (.recompose order ew mw f)) = .ok (.recompose order ew mw f) := by
  have hlt := packed_lt f
  have hport := portBits_littleBytes hlt (by rwa [byteCount_of_admitted ha])
  rw [encode, decode_packer ha, decodePacker, exceptBind_of_ok hport, exceptBind_of_ok (orderByte_byteOfOrder order),
    unpack_packed]
  rfl

/-- What an extractor's word decodes to is presented by its bytes. -/
theorem encode_of_decodeExtractor {ew mw : Nat} {B : List Byte} {i : Instr} (h : decodeExtractor ew mw B = .ok i) :
    (encode i).bytes = B := by
  unfold decodeExtractor at h
  split at h
  · obtain ⟨N, hN, h⟩ := exceptBind_eq_ok h
    obtain ⟨order, ho, h⟩ := exceptBind_eq_ok h
    cases h
    simp only [encode, byteOfOrder_of_orderByte ho, littleBytes_toNat_of_portBits hN]
  · cases h

/-- What a packer's word decodes to is presented by its bytes. -/
theorem encode_of_decodePacker {ew mw : Nat} {B : List Byte} {i : Instr} (h : decodePacker ew mw B = .ok i) :
    (encode i).bytes = B := by
  unfold decodePacker at h
  split at h
  · obtain ⟨N, hN, h⟩ := exceptBind_eq_ok h
    obtain ⟨order, ho, h⟩ := exceptBind_eq_ok h
    cases h
    obtain ⟨-, -, hlt⟩ := portBits_eq_ok hN
    simp only [encode, byteOfOrder_of_orderByte ho, packed_unpack hlt, littleBytes_of_portBits hN]
  · cases h

/-! ### The words of the classifier and of the normalizer (R33, R34) -/

/-- `E` and `M` cut out of their concatenation are `E` and `M`. -/
theorem ofNat_append_toNat (e : BitVec 15) (m : BitVec 64) :
    BitVec.ofNat 15 ((e ++ m).toNat >>> 64) = e ∧ BitVec.ofNat 64 (e ++ m).toNat = m := by
  have hN := append_toNat e m
  have := e.isLt; have := m.isLt
  constructor
  · apply BitVec.eq_of_toNat_eq
    rw [BitVec.toNat_ofNat, Nat.shiftRight_eq_div_pow]
    omega
  · apply BitVec.eq_of_toNat_eq
    rw [BitVec.toNat_ofNat]
    omega

/-- A number of 79 bits is its `E` and its `M` put together. -/
theorem append_ofNat_toNat {N : Nat} (h : N < 2 ^ 79) :
    (BitVec.ofNat 15 (N >>> 64) ++ BitVec.ofNat 64 N).toNat = N := by
  rw [append_toNat, BitVec.toNat_ofNat, BitVec.toNat_ofNat, Nat.shiftRight_eq_div_pow]
  omega

theorem decode_classifierWord (e : BitVec 15) (m : BitVec 64) :
    decode (encode (.classify e m)) = .ok (.classify e m) := by
  obtain ⟨he, hm⟩ := ofNat_append_toNat e m
  rw [encode, decode_classifier (portBits_toNat (e ++ m) (by norm_num)), he, hm]

theorem decode_normalizerWord (e : BitVec 15) (m : BitVec 64) :
    decode (encode (.normalize e m)) = .ok (.normalize e m) := by
  obtain ⟨he, hm⟩ := ofNat_append_toNat e m
  rw [encode, decode_normalizer (portBits_toNat (e ++ m) (by norm_num)), he, hm]

/-- The bytes of `E` and `M` that a 79-wire port read are the ones it was presented in. -/
theorem littleBytes_append_of_portBits {B : List Byte} {N : Nat} (h : portBits 10 79 B = .ok N) :
    littleBytes 10 (BitVec.ofNat 15 (N >>> 64) ++ BitVec.ofNat 64 N).toNat = B := by
  obtain ⟨-, -, hlt⟩ := portBits_eq_ok h
  rw [append_ofNat_toNat hlt, littleBytes_of_portBits h]

/-! ### All rows -/

/-- Settles O8: each format's port reads back the number presented, and each row's fields are in it. -/
theorem decodeOfEncodeIsIdentity : Obligations.DecodeOfEncodeIsIdentity := by
  have request {o len data i} (h : decodeReq (o ++ len ++ data) = i) : decode (reqWord o len data) = .ok i := by
    rw [decode_reqWord, h]
  have classRow {n i} (h : decodeClass n = i) : decode (classWord n) = .ok i := by rw [decode_classWord, h]
  have operandRow {n i} (h : decodeOperand n = i) : decode (operandWord n) = .ok i := by rw [decode_operandWord, h]
  intro i hi
  cases i with
  | x2dLe data => exact request (decodeReq_append 0#1 10#8 data)
  | x2dBe data => exact request (decodeReq_append 1#1 10#8 data)
  | x2dIllegalLength o len data => exact request ((decodeReq_append o len data).trans (if_neg (bne_iff_ne.mp hi)))
  | decompose order ew mw b => exact decode_extractorWord hi order b
  | recompose order ew mw f => exact decode_packerWord hi order f
  | classify e m => exact decode_classifierWord e m
  | normalize e m => exact decode_normalizerWord e m
  | classZero s => exact classRow (decodeClass_zeroOperand s)
  | classDenormal s frac => exact classRow (decodeClass_denormalOperand s (bne_iff_ne.mp hi))
  | classPseudoDenormal s frac => exact classRow (decodeClass_pseudoDenormalOperand s frac)
  | classPseudoInf s => exact classRow (decodeClass_pseudoInfOperand s)
  | classPseudoNanLo s low => exact classRow (decodeClass_pseudoNanLoOperand s (bne_iff_ne.mp hi))
  | classPseudoNanHi s low => exact classRow (decodeClass_pseudoNanHiOperand s low)
  | classInf s => exact classRow (decodeClass_infOperand s)
  | classNan s low => exact classRow (decodeClass_nanOperand s (bne_iff_ne.mp hi))
  | classIndefinite s => exact classRow (decodeClass_indefiniteOperand s)
  | classQuietNan s low => exact classRow (decodeClass_quietNanOperand s (bne_iff_ne.mp hi))
  | classNormal s e m =>
    obtain ⟨h0, h1⟩ := range_iff.mp hi
    exact classRow (decodeClass_x80 s m h0 h1)
  | normalizeUnnormal s e frac =>
    obtain ⟨h0, h1⟩ := range_iff.mp hi
    exact operandRow (decodeOperand_unnormalOperand s frac h0 h1)
  | normalizeTooSmall s e frac =>
    obtain ⟨h0, h1⟩ := range_iff.mp hi
    have hrow := decodeOperand_normalizedOperand s frac (e := e) (by omega) (by omega)
    exact operandRow (hrow.trans (if_pos h1))
  | normalizeTooLarge s e frac =>
    obtain ⟨h0, h1⟩ := range_iff.mp hi
    have hrow := decodeOperand_normalizedOperand s frac (e := e) (by omega) (by omega)
    rw [if_neg (by omega), if_pos h0] at hrow
    exact operandRow hrow
  | normalizeOk s e frac =>
    obtain ⟨h0, h1⟩ := range_iff.mp hi
    have hrow := decodeOperand_normalizedOperand s frac (e := e) (by omega) (by omega)
    rw [if_neg (by omega), if_neg (by omega)] at hrow
    exact operandRow hrow

/-- Settles O9: the number a port read has the word's bytes, and what the number stands for is presented by it. -/
theorem encodeOfDecodeGivesTheBytes : Obligations.EncodeOfDecodeGivesTheBytes := by
  rintro ⟨format, B⟩ i h
  cases format with
  | req =>
    obtain ⟨N, hN, h⟩ := exceptBind_eq_ok h
    cases h
    obtain ⟨hwf, hword⟩ := encode_decodeReq (BitVec.ofNat 89 N)
    exact ⟨hwf, by rw [hword, littleBytes_toNat_of_portBits hN]⟩
  | x80Class =>
    obtain ⟨N, hN, h⟩ := exceptBind_eq_ok h
    cases h
    obtain ⟨hwf, hword⟩ := encode_decodeClass (BitVec.ofNat 80 N)
    exact ⟨hwf, by rw [hword, classWord, littleBytes_toNat_of_portBits hN]⟩
  | x80Operand =>
    obtain ⟨N, hN, h⟩ := exceptBind_eq_ok h
    cases h
    obtain ⟨hwf, hbytes⟩ := encode_decodeOperand (BitVec.ofNat 80 N)
    exact ⟨hwf, by rw [hbytes, littleBytes_toNat_of_portBits hN]⟩
  | extractor ew mw =>
    simp only [decode] at h
    split at h
    · next ha =>
      obtain ⟨o, b, rfl⟩ := decodeExtractor_eq_ok h
      exact ⟨ha, encode_of_decodeExtractor h⟩
    · cases h
  | packer ew mw =>
    simp only [decode] at h
    split at h
    · next ha =>
      obtain ⟨o, f, rfl⟩ := decodePacker_eq_ok h
      exact ⟨ha, encode_of_decodePacker h⟩
    · cases h
  | classifier =>
    obtain ⟨N, hN, h⟩ := exceptBind_eq_ok h
    cases h
    exact ⟨rfl, littleBytes_append_of_portBits hN⟩
  | normalizer =>
    obtain ⟨N, hN, h⟩ := exceptBind_eq_ok h
    cases h
    exact ⟨rfl, littleBytes_append_of_portBits hN⟩
  | unknown nbits => cases h

end Sys2Proof.Machine
end

section
/-! PROOFS. The rows of the operand decode as masks and patterns: each row matches exactly the operands with its fields, and an
operand reads as the row that matches it (R70, R113, R127). -/

namespace Sys2Proof.Machine

open Sys2Proof

/-! ### Masks -/

/-- A mask on an operand is a mask on each of its fields. -/
theorem and_x80_eq_x80_iff (n : BitVec 80) (eMask e : BitVec 15) (mMask m : BitVec 64) :
    n &&& x80 0#1 eMask mMask = x80 0#1 e m ↔ x80Exponent n &&& eMask = e ∧ x80Mantissa n &&& mMask = m := by
  have high : x80Sign n ++ x80Exponent n &&& 0#1 ++ eMask = 0#1 ++ (x80Exponent n &&& eMask) := by
    rw [BitVec.and_append, BitVec.and_zero]
  have hand : n &&& x80 0#1 eMask mMask = x80 0#1 (x80Exponent n &&& eMask) (x80Mantissa n &&& mMask) := by
    conv_lhs => rw [← x80_fields n]
    exact BitVec.and_append.trans (congrArg (· ++ (x80Mantissa n &&& mMask)) high)
  rw [hand]
  constructor
  · intro h
    have he := congrArg x80Exponent h
    have hm := congrArg x80Mantissa h
    rw [x80Exponent_x80, x80Exponent_x80] at he
    rw [x80Mantissa_x80, x80Mantissa_x80] at hm
    exact ⟨he, hm⟩
  · rintro ⟨rfl, rfl⟩
    rfl

theorem and_integerMask_eq_iff (m : BitVec 64) (b : BitVec 1) :
    m &&& 1#1 ++ 0#63 = b ++ 0#63 ↔ integerBit m = b := by
  have hand : m &&& 1#1 ++ 0#63 = integerBit m ++ 0#63 := by
    conv_lhs => rw [← integerBit_append_frac63 m, BitVec.and_append, BitVec.and_zero]
    exact congrArg (· ++ 0#63) BitVec.and_allOnes
  rw [hand]
  exact BitVec.append_left_inj 0#63

theorem and_selectorMask_eq_iff (m : BitVec 64) (t : BitVec 2) :
    m &&& 0b11#2 ++ 0#62 = t ++ 0#62 ↔ selector m = t := by
  have hand : m &&& 0b11#2 ++ 0#62 = selector m ++ 0#62 := by
    conv_lhs => rw [← selector_append_low62 m, BitVec.and_append, BitVec.and_zero]
    exact congrArg (· ++ 0#62) BitVec.and_allOnes
  rw [hand]
  exact BitVec.append_left_inj 0#62

section masks
variable (n : BitVec 80) (e : BitVec 15)

/-- The mask of all bits but the sign. -/
theorem and_operandMask_eq_iff (m : BitVec 64) :
    n &&& 0x7FFFFFFFFFFFFFFFFFFF#80 = x80 0#1 e m ↔ x80Exponent n = e ∧ x80Mantissa n = m := by
  have h := and_x80_eq_x80_iff n (BitVec.allOnes 15) e (BitVec.allOnes 64) m
  rwa [BitVec.and_allOnes, BitVec.and_allOnes] at h

/-- The mask of the exponent and the integer bit. -/
theorem and_exponentIntegerMask_eq_iff (b : BitVec 1) :
    n &&& 0x7FFF8000000000000000#80 = x80 0#1 e (b ++ 0#63) ↔
      x80Exponent n = e ∧ integerBit (x80Mantissa n) = b := by
  have h := and_x80_eq_x80_iff n (BitVec.allOnes 15) e (1#1 ++ 0#63) (b ++ 0#63)
  rwa [BitVec.and_allOnes, and_integerMask_eq_iff] at h

/-- The mask of the exponent and the selector. -/
theorem and_exponentSelectorMask_eq_iff (t : BitVec 2) :
    n &&& 0x7FFFC000000000000000#80 = x80 0#1 e (t ++ 0#62) ↔
      x80Exponent n = e ∧ selector (x80Mantissa n) = t := by
  have h := and_x80_eq_x80_iff n (BitVec.allOnes 15) e (0b11#2 ++ 0#62) (t ++ 0#62)
  rwa [BitVec.and_allOnes, and_selectorMask_eq_iff] at h

/-- The mask of the integer bit alone. -/
theorem and_integerBitMask_eq_iff (b : BitVec 1) :
    n &&& 0x00008000000000000000#80 = x80 0#1 0#15 (b ++ 0#63) ↔ integerBit (x80Mantissa n) = b := by
  have h := and_x80_eq_x80_iff n 0#15 0#15 (1#1 ++ 0#63) (b ++ 0#63)
  rwa [BitVec.and_zero, and_integerMask_eq_iff, eq_self, true_and] at h

end masks

/-! ### When a row matches -/

theorem X80Row.matches_iff (r : X80Row) (n : BitVec 80) :
    r.matches n = true ↔ n &&& r.mask = r.pattern ∧ r.condition n = true := by
  rw [X80Row.matches, Bool.and_eq_true, beq_iff_eq]

/-- A row without a condition matches by its mask and pattern. -/
theorem X80Row.matches_iff_of_mask {r : X80Row} {n : BitVec 80} {P : Prop} (hmask : n &&& r.mask = r.pattern ↔ P)
    (hcond : r.condition n = true) : r.matches n = true ↔ P := by
  rw [X80Row.matches_iff, hmask, and_iff_left hcond]

/-- A row with a condition matches by its mask and pattern and its condition. -/
theorem X80Row.matches_iff_of_mask_condition {r : X80Row} {n : BitVec 80} {P Q R : Prop}
    (hmask : n &&& r.mask = r.pattern ↔ P ∧ Q) (hcond : r.condition n = true ↔ R) :
    r.matches n = true ↔ P ∧ Q ∧ R := by
  rw [X80Row.matches_iff, hmask, hcond, and_assoc]

theorem frac63_x80Mantissa (n : BitVec 80) : frac63 (x80Mantissa n) = n.extractLsb' 0 63 := by
  apply BitVec.eq_of_toNat_eq
  rw [frac63_toNat, x80Mantissa_toNat, BitVec.extractLsb'_toNat, Nat.shiftRight_zero]
  omega

theorem low62_x80Mantissa (n : BitVec 80) : low62 (x80Mantissa n) = n.extractLsb' 0 62 := by
  apply BitVec.eq_of_toNat_eq
  rw [low62_toNat, x80Mantissa_toNat, BitVec.extractLsb'_toNat, Nat.shiftRight_zero]
  omega

/-- The condition "the fraction is not 0". -/
theorem frac_bne_zero_iff (n : BitVec 80) : (n.extractLsb' 0 63 != 0#63) = true ↔ frac63 (x80Mantissa n) ≠ 0#63 := by
  rw [bne_iff_ne, frac63_x80Mantissa]

/-- The condition "the low bits are not 0". -/
theorem low_bne_zero_iff (n : BitVec 80) : (n.extractLsb' 0 62 != 0#62) = true ↔ low62 (x80Mantissa n) ≠ 0#62 := by
  rw [bne_iff_ne, low62_x80Mantissa]

theorem exponentIn_iff (lo hi : Nat) (n : BitVec 80) :
    exponentIn lo hi n = true ↔ lo ≤ (x80Exponent n).toNat ∧ (x80Exponent n).toNat ≤ hi :=
  range_iff

section classRows
variable (n : BitVec 80)

theorem zeroRow_matches_iff : classRows[0].matches n = true ↔ x80Exponent n = 0#15 ∧ x80Mantissa n = 0#64 :=
  X80Row.matches_iff_of_mask (and_operandMask_eq_iff n 0#15 0#64) rfl

theorem denormalRow_matches_iff : classRows[1].matches n = true ↔
    x80Exponent n = 0#15 ∧ integerBit (x80Mantissa n) = 0#1 ∧ frac63 (x80Mantissa n) ≠ 0#63 :=
  X80Row.matches_iff_of_mask_condition (and_exponentIntegerMask_eq_iff n 0#15 0#1) (frac_bne_zero_iff n)

theorem pseudoDenormalRow_matches_iff : classRows[2].matches n = true ↔
    x80Exponent n = 0#15 ∧ integerBit (x80Mantissa n) = 1#1 :=
  X80Row.matches_iff_of_mask (and_exponentIntegerMask_eq_iff n 0#15 1#1) rfl

theorem pseudoInfRow_matches_iff : classRows[3].matches n = true ↔
    x80Exponent n = 32767#15 ∧ x80Mantissa n = 0#64 :=
  X80Row.matches_iff_of_mask (and_operandMask_eq_iff n 32767#15 0#64) rfl

theorem pseudoNanLoRow_matches_iff : classRows[4].matches n = true ↔
    x80Exponent n = 32767#15 ∧ selector (x80Mantissa n) = 0b00#2 ∧ low62 (x80Mantissa n) ≠ 0#62 :=
  X80Row.matches_iff_of_mask_condition (and_exponentSelectorMask_eq_iff n 32767#15 0b00#2) (low_bne_zero_iff n)

theorem pseudoNanHiRow_matches_iff : classRows[5].matches n = true ↔
    x80Exponent n = 32767#15 ∧ selector (x80Mantissa n) = 0b01#2 :=
  X80Row.matches_iff_of_mask (and_exponentSelectorMask_eq_iff n 32767#15 0b01#2) rfl

theorem infRow_matches_iff : classRows[6].matches n = true ↔
    x80Exponent n = 32767#15 ∧ x80Mantissa n = 0b10#2 ++ 0#62 :=
  X80Row.matches_iff_of_mask (and_operandMask_eq_iff n 32767#15 (0b10#2 ++ 0#62)) rfl

theorem nanRow_matches_iff : classRows[7].matches n = true ↔
    x80Exponent n = 32767#15 ∧ selector (x80Mantissa n) = 0b10#2 ∧ low62 (x80Mantissa n) ≠ 0#62 :=
  X80Row.matches_iff_of_mask_condition (and_exponentSelectorMask_eq_iff n 32767#15 0b10#2) (low_bne_zero_iff n)

theorem indefiniteRow_matches_iff : classRows[8].matches n = true ↔
    x80Exponent n = 32767#15 ∧ x80Mantissa n = 0b11#2 ++ 0#62 :=
  X80Row.matches_iff_of_mask (and_operandMask_eq_iff n 32767#15 (0b11#2 ++ 0#62)) rfl

theorem quietNanRow_matches_iff : classRows[9].matches n = true ↔
    x80Exponent n = 32767#15 ∧ selector (x80Mantissa n) = 0b11#2 ∧ low62 (x80Mantissa n) ≠ 0#62 :=
  X80Row.matches_iff_of_mask_condition (and_exponentSelectorMask_eq_iff n 32767#15 0b11#2) (low_bne_zero_iff n)

theorem normalRow_matches_iff : classRows[10].matches n = true ↔
    1 ≤ (x80Exponent n).toNat ∧ (x80Exponent n).toNat ≤ 32766 :=
  (X80Row.matches_iff _ n).trans ((and_iff_right BitVec.and_zero).trans (exponentIn_iff 1 32766 n))

end classRows

section normalizeRows
variable (n : BitVec 80)

theorem unnormalRow_matches_iff : normalizeRows[0].matches n = true ↔ integerBit (x80Mantissa n) = 0#1 ∧
    1 ≤ (x80Exponent n).toNat ∧ (x80Exponent n).toNat ≤ 32766 :=
  (X80Row.matches_iff _ n).trans (and_congr (and_integerBitMask_eq_iff n 0#1) (exponentIn_iff 1 32766 n))

theorem tooSmallRow_matches_iff : normalizeRows[1].matches n = true ↔ integerBit (x80Mantissa n) = 1#1 ∧
    1 ≤ (x80Exponent n).toNat ∧ (x80Exponent n).toNat ≤ 15359 :=
  (X80Row.matches_iff _ n).trans (and_congr (and_integerBitMask_eq_iff n 1#1) (exponentIn_iff 1 15359 n))

theorem tooLargeRow_matches_iff : normalizeRows[2].matches n = true ↔ integerBit (x80Mantissa n) = 1#1 ∧
    17407 ≤ (x80Exponent n).toNat ∧ (x80Exponent n).toNat ≤ 32766 :=
  (X80Row.matches_iff _ n).trans (and_congr (and_integerBitMask_eq_iff n 1#1) (exponentIn_iff 17407 32766 n))

theorem okRow_matches_iff : normalizeRows[3].matches n = true ↔ integerBit (x80Mantissa n) = 1#1 ∧
    15360 ≤ (x80Exponent n).toNat ∧ (x80Exponent n).toNat ≤ 17406 :=
  (X80Row.matches_iff _ n).trans (and_congr (and_integerBitMask_eq_iff n 1#1) (exponentIn_iff 15360 17406 n))

end normalizeRows

/-! ### An operand reads as the row that matches it -/

/-- What holds of each of the eleven class rows holds of every class row. -/
theorem forall_mem_classRows {P : X80Row → Prop} (zero : P classRows[0]) (denormal : P classRows[1])
    (pseudoDenormal : P classRows[2]) (pseudoInf : P classRows[3]) (pseudoNanLo : P classRows[4])
    (pseudoNanHi : P classRows[5]) (inf : P classRows[6]) (nan : P classRows[7]) (indefinite : P classRows[8])
    (quietNan : P classRows[9]) (normal : P classRows[10]) : ∀ r ∈ classRows, P r := by
  intro r hr
  simp only [classRows, List.mem_cons, List.not_mem_nil, or_false] at hr
  obtain rfl | rfl | rfl | rfl | rfl | rfl | rfl | rfl | rfl | rfl | rfl := hr
  all_goals assumption

/-- What holds of each of the four rows of the normalizer holds of every one. -/
theorem forall_mem_normalizeRows {P : X80Row → Prop} (unnormal : P normalizeRows[0]) (tooSmall : P normalizeRows[1])
    (tooLarge : P normalizeRows[2]) (ok : P normalizeRows[3]) : ∀ r ∈ normalizeRows, P r := by
  intro r hr
  simp only [normalizeRows, List.mem_cons, List.not_mem_nil, or_false] at hr
  obtain rfl | rfl | rfl | rfl := hr
  all_goals assumption

/-- When the rows have different names, some row matches, and each row that matches has the name `x`, then a row matches exactly
when `x` is its name. -/
theorem matches_iff_of_cover {rows : List X80Row} {n : BitVec 80} {x : String}
    (hnames : (rows.map X80Row.mnemonic).Nodup) (hcover : ∃ r ∈ rows, r.matches n = true)
    (hname : ∀ r ∈ rows, r.matches n = true → x = r.mnemonic) {r : X80Row} (hr : r ∈ rows) :
    r.matches n = true ↔ x = r.mnemonic := by
  refine ⟨hname r hr, fun hx => ?_⟩
  obtain ⟨r', hr', hmatch⟩ := hcover
  have hsame : r.mnemonic = r'.mnemonic := hx.symm.trans (hname r' hr' hmatch)
  rwa [List.inj_on_of_nodup_map hnames hr hr' hsame]

/-- Every operand matches a class row: the table is total (R73, R113). -/
theorem classRows_cover (n : BitVec 80) : ∃ r ∈ classRows, r.matches n = true := by
  by_cases he0 : x80Exponent n = 0#15
  · obtain hb | hb := BitVec.eq_zero_or_eq_one (integerBit (x80Mantissa n))
    · by_cases hf : frac63 (x80Mantissa n) = 0#63
      · exact ⟨_, List.getElem_mem _, (zeroRow_matches_iff n).mpr ⟨he0, eq_append_of_integerBit hb hf⟩⟩
      · exact ⟨_, List.getElem_mem _, (denormalRow_matches_iff n).mpr ⟨he0, hb, hf⟩⟩
    · exact ⟨_, List.getElem_mem _, (pseudoDenormalRow_matches_iff n).mpr ⟨he0, hb⟩⟩
  by_cases he1 : x80Exponent n = 32767#15
  · obtain ht | ht | ht | ht := selector_cases (selector (x80Mantissa n))
    · by_cases hl : low62 (x80Mantissa n) = 0#62
      · exact ⟨_, List.getElem_mem _, (pseudoInfRow_matches_iff n).mpr ⟨he1, eq_append_of_selector ht hl⟩⟩
      · exact ⟨_, List.getElem_mem _, (pseudoNanLoRow_matches_iff n).mpr ⟨he1, ht, hl⟩⟩
    · exact ⟨_, List.getElem_mem _, (pseudoNanHiRow_matches_iff n).mpr ⟨he1, ht⟩⟩
    · by_cases hl : low62 (x80Mantissa n) = 0#62
      · exact ⟨_, List.getElem_mem _, (infRow_matches_iff n).mpr ⟨he1, eq_append_of_selector ht hl⟩⟩
      · exact ⟨_, List.getElem_mem _, (nanRow_matches_iff n).mpr ⟨he1, ht, hl⟩⟩
    · by_cases hl : low62 (x80Mantissa n) = 0#62
      · exact ⟨_, List.getElem_mem _, (indefiniteRow_matches_iff n).mpr ⟨he1, eq_append_of_selector ht hl⟩⟩
      · exact ⟨_, List.getElem_mem _, (quietNanRow_matches_iff n).mpr ⟨he1, ht, hl⟩⟩
  · obtain ⟨h0, h1⟩ := exponent_between_of_ne he0 he1
    exact ⟨_, List.getElem_mem _, (normalRow_matches_iff n).mpr (by omega)⟩

/-- An operand that matches a class row reads as it. -/
theorem mnemonic_decodeClass_of_matches (n : BitVec 80) :
    ∀ r ∈ classRows, r.matches n = true → (decodeClass n).mnemonic = r.mnemonic := by
  refine forall_mem_classRows (fun h => ?zero) (fun h => ?denormal) (fun h => ?pseudoDenormal) (fun h => ?pseudoInf)
    (fun h => ?pseudoNanLo) (fun h => ?pseudoNanHi) (fun h => ?inf) (fun h => ?nan) (fun h => ?indefinite)
    (fun h => ?quietNan) (fun h => ?normal)
  case zero =>
    obtain ⟨he, hm⟩ := (zeroRow_matches_iff n).mp h
    rw [decodeClass_zero he hm]; rfl
  case denormal =>
    obtain ⟨he, hb, hf⟩ := (denormalRow_matches_iff n).mp h
    rw [decodeClass_denormal he hb hf]; rfl
  case pseudoDenormal =>
    obtain ⟨he, hb⟩ := (pseudoDenormalRow_matches_iff n).mp h
    rw [decodeClass_pseudoDenormal he hb]; rfl
  case pseudoInf =>
    obtain ⟨he, hm⟩ := (pseudoInfRow_matches_iff n).mp h
    rw [decodeClass_pseudoInf he hm]; rfl
  case pseudoNanLo =>
    obtain ⟨he, ht, hl⟩ := (pseudoNanLoRow_matches_iff n).mp h
    rw [decodeClass_pseudoNanLo he ht hl]; rfl
  case pseudoNanHi =>
    obtain ⟨he, ht⟩ := (pseudoNanHiRow_matches_iff n).mp h
    rw [decodeClass_pseudoNanHi he ht]; rfl
  case inf =>
    obtain ⟨he, hm⟩ := (infRow_matches_iff n).mp h
    rw [decodeClass_inf he hm]; rfl
  case nan =>
    obtain ⟨he, ht, hl⟩ := (nanRow_matches_iff n).mp h
    rw [decodeClass_nan he ht hl]; rfl
  case indefinite =>
    obtain ⟨he, hm⟩ := (indefiniteRow_matches_iff n).mp h
    rw [decodeClass_indefinite he hm]; rfl
  case quietNan =>
    obtain ⟨he, ht, hl⟩ := (quietNanRow_matches_iff n).mp h
    rw [decodeClass_quietNan he ht hl]; rfl
  case normal =>
    obtain ⟨h0, h1⟩ := (normalRow_matches_iff n).mp h
    rw [decodeClass_normal (by omega) (by omega)]; rfl

/-- Settles O11: the rows have different names, every operand matches one of them, and it reads as each row it matches. -/
theorem classRowsAreDecodedExactly : Obligations.ClassRowsAreDecodedExactly := by
  intro n r hr
  exact matches_iff_of_cover (by decide) (classRows_cover n) (mnemonic_decodeClass_of_matches n) hr

/-! ### The normalizer's rows -/

/-- Every operand of class `NORMAL` matches a row of the normalizer (R127). -/
theorem normalizeRows_cover {n : BitVec 80} (h0 : 0 < (x80Exponent n).toNat) (h1 : (x80Exponent n).toNat < 32767) :
    ∃ r ∈ normalizeRows, r.matches n = true := by
  obtain hb | hb := BitVec.eq_zero_or_eq_one (integerBit (x80Mantissa n))
  · exact ⟨_, List.getElem_mem _, (unnormalRow_matches_iff n).mpr ⟨hb, by omega⟩⟩
  by_cases hs : (x80Exponent n).toNat ≤ 15359
  · exact ⟨_, List.getElem_mem _, (tooSmallRow_matches_iff n).mpr ⟨hb, by omega⟩⟩
  by_cases hl : 17407 ≤ (x80Exponent n).toNat
  · exact ⟨_, List.getElem_mem _, (tooLargeRow_matches_iff n).mpr ⟨hb, by omega⟩⟩
  · exact ⟨_, List.getElem_mem _, (okRow_matches_iff n).mpr ⟨hb, by omega⟩⟩

/-- An operand that matches a row of the normalizer reads as it. -/
theorem mnemonic_decodeOperand_of_matches (n : BitVec 80) :
    ∀ r ∈ normalizeRows, r.matches n = true → (decodeOperand n).mnemonic = r.mnemonic := by
  refine forall_mem_normalizeRows (fun h => ?unnormal) (fun h => ?tooSmall) (fun h => ?tooLarge) (fun h => ?ok)
  case unnormal =>
    obtain ⟨hb, h0, h1⟩ := (unnormalRow_matches_iff n).mp h
    rw [decodeOperand_unnormal (by omega) (by omega) hb]; rfl
  case tooSmall =>
    obtain ⟨hb, h0, h1⟩ := (tooSmallRow_matches_iff n).mp h
    rw [decodeOperand_normalized (by omega) (by omega) hb, if_pos h1]; rfl
  case tooLarge =>
    obtain ⟨hb, h0, h1⟩ := (tooLargeRow_matches_iff n).mp h
    rw [decodeOperand_normalized (by omega) (by omega) hb, if_neg (by omega), if_pos h0]; rfl
  case ok =>
    obtain ⟨hb, h0, h1⟩ := (okRow_matches_iff n).mp h
    rw [decodeOperand_normalized (by omega) (by omega) hb, if_neg (by omega), if_neg (by omega)]; rfl

/-- An operand that matches a row of the normalizer is of class `NORMAL` (R127). -/
theorem exponent_between_of_matches (n : BitVec 80) : ∀ r ∈ normalizeRows, r.matches n = true →
    0 < (x80Exponent n).toNat ∧ (x80Exponent n).toNat < 32767 := by
  refine forall_mem_normalizeRows (fun h => ?_) (fun h => ?_) (fun h => ?_) (fun h => ?_)
  · obtain ⟨-, h0, h1⟩ := (unnormalRow_matches_iff n).mp h; omega
  · obtain ⟨-, h0, h1⟩ := (tooSmallRow_matches_iff n).mp h; omega
  · obtain ⟨-, h0, h1⟩ := (tooLargeRow_matches_iff n).mp h; omega
  · obtain ⟨-, h0, h1⟩ := (okRow_matches_iff n).mp h; omega

/-- No operand reads in the class format as a row of the normalizer: its name is a class row's. -/
theorem mnemonic_decodeClass_ne (n : BitVec 80) {r : X80Row} (hr : r ∈ normalizeRows) :
    (decodeClass n).mnemonic ≠ r.mnemonic := by
  have hdisjoint : ∀ x ∈ normalizeRows.map X80Row.mnemonic, x ∉ classRows.map X80Row.mnemonic := by decide
  obtain ⟨c, hc, hmatch⟩ := classRows_cover n
  rw [mnemonic_decodeClass_of_matches n c hc hmatch]
  intro hsame
  exact hdisjoint _ (List.mem_map_of_mem hr) (hsame ▸ List.mem_map_of_mem hc)

/-- Settles O12: inside class `NORMAL` as for the class rows; outside it no row of the normalizer matches, and the operand reads
as a class row. -/
theorem normalizerRowsAreDecodedExactly : Obligations.NormalizerRowsAreDecodedExactly := by
  intro n r hr
  by_cases he : x80Exponent n = 0#15 ∨ x80Exponent n = 32767#15
  · rw [decodeOperand_special he]
    refine iff_of_false (fun hmatch => ?_) (mnemonic_decodeClass_ne n hr)
    obtain ⟨h0, h1⟩ := exponent_between_of_matches n r hr hmatch
    obtain ⟨hz, hi⟩ := exponent_ne_of_between h0 h1
    exact not_or_intro hz hi he
  · obtain ⟨hz, hi⟩ := not_or.mp he
    obtain ⟨h0, h1⟩ := exponent_between_of_ne hz hi
    exact matches_iff_of_cover (by decide) (normalizeRows_cover h0 h1) (mnemonic_decodeOperand_of_matches n) hr

end Sys2Proof.Machine
end

section
/-! PROOFS. What one row of the converter answers on its ports: an operand's row, and the request of a wrong length (R137,
R147); and words written out from the encodings (R60, R63). -/

namespace Sys2Proof.Machine

open Sys2Proof

/-! ### A row that presents an operand -/

/-- The lanes of an assembled operand spell in little order the fields it was assembled from. -/
theorem unpack_lanes_x80 (s : BitVec 1) (e : BitVec 15) (m : BitVec 64) :
    unpack 15 64 (unsignedOf .little (littleBytes 10 (x80 s e m).toNat)) = ⟨s, e, m⟩ := by
  have hlt : (x80 s e m).toNat < 256 ^ 10 := (x80 s e m).isLt
  rw [unsignedOf, littleValue_littleBytes_mod, Nat.mod_eq_of_lt hlt, unpack_x80]

/-- A row that presents an operand changes the converter's ports alone and shows the class of its fields and the outcome of the
`case` of `X2D` on them (R135, R147). -/
theorem convertsOperand_x80 {i : Instr} {s : State} {sign : BitVec 1} {e : BitVec 15} {m : BitVec 64}
    (h : exec i s = .next (s.convertOperand (x80 sign e m))) :
    convertsOperand i s (x80 sign e m) (classCode (classify e m))
      (Response.ofVerdict ((convertFields ⟨sign, e, m⟩).bind fun r => .ok (doublePattern r.1, r.2))) := by
  refine ⟨evalConverter ⟨0#1, 10#8, x80 sign e m⟩, h, rfl, ?_, ?_⟩
  · exact (evalConverter_wires_show ⟨0#1, 10#8, x80 sign e m⟩ rfl (unpack_lanes_x80 sign e m).symm).cls
  · exact (evalConverter_response_of_inLen _ rfl).trans (congrArg _ (x2d_little_x80 sign e m))

/-- The operand of a row with the integer bit set, as the table's bit strings put together (R70). -/
theorem append_eq_normalizedOperand (sign : BitVec 1) (e : BitVec 15) (frac : BitVec 63) :
    sign ++ e ++ 1#1 ++ frac = normalizedOperand sign e frac := by
  apply BitVec.eq_of_toNat_eq
  rw [append_toNat, append_toNat, append_toNat, normalizedOperand, x80_toNat, bitFraction_toNat]
  omega

/-! ### `NORMALIZE.OK` -/

/-- In range the row `NORMALIZE.OK` shows class `NORMAL`, OK, its double and the flag of its mantissa (R120, R145). -/
theorem convertsOperand_normalizeOk (sign : BitVec 1) {e : BitVec 15} (frac : BitVec 63) (s : State)
    (h0 : 15360 ≤ e.toNat) (h1 : e.toNat ≤ 17406) :
    convertsOperand (.normalizeOk sign e frac) s (normalizedOperand sign e frac) 10#4
      ⟨0#2, 0#4, precisionLost (1#1 ++ frac), normalizedDouble sign e frac⟩ := by
  have hclass := classify_of_exponent_between (e := e) (1#1 ++ frac) (by omega) (by omega)
  have hnorm := normalizeOperand_of_range (integerBit_append 1#1 frac) h0 h1
  have hrow := convertsOperand_x80 (i := .normalizeOk sign e frac) (s := s) (m := 1#1 ++ frac) rfl
  rw [convertFields, hclass, hnorm] at hrow
  exact hrow

/-- The double of the row as a number (R68). -/
theorem normalizedDouble_toNat (sign : BitVec 1) {e : BitVec 15} (frac : BitVec 63) (h0 : 15360 ≤ e.toNat)
    (h1 : e.toNat ≤ 17406) :
    (normalizedDouble sign e frac).toNat =
      sign.toNat * 2 ^ 63 + (e.toNat - 15360) * 2 ^ 52 + frac.toNat / 2 ^ 11 := by
  have hexp := doubleExponent_normalizedDouble sign frac h0 h1
  have hmant := doubleMantissa_normalizedDouble sign e frac
  rw [normalizedDouble, doubleExponent_doublePattern] at hexp
  rw [normalizedDouble, doubleMantissa_doublePattern] at hmant
  rw [normalizedDouble, doublePattern_toNat, hexp, hmant]

/-- The flag is 1 exactly when one of the 11 lowest bits of the fraction is set (R125). -/
theorem precisionLost_append_eq_one_iff (b : BitVec 1) (frac : BitVec 63) :
    precisionLost (b ++ frac) = 1#1 ↔ frac.toNat % 2 ^ 11 ≠ 0 := by
  rw [Ne, ← precisionLost_append_eq_zero_iff b]
  generalize precisionLost (b ++ frac) = lost
  revert lost; decide

/-- Settles O39: the row's response, with its double and its flag as numbers. -/
theorem normalizedRowGivesTheTruncatedDouble : Obligations.NormalizedRowGivesTheTruncatedDouble := by
  intro sign e frac s h0 h1
  rw [append_eq_normalizedOperand]
  exact ⟨_, _, convertsOperand_normalizeOk sign frac s h0 h1, normalizedDouble_toNat sign frac h0 h1,
    precisionLost_append_eq_one_iff 1#1 frac⟩

/-! ### `X2D.ILLEGAL_LENGTH` -/

/-- Settles O44: the request is presented as it stands, and a length other than 10 gets the length fault. -/
theorem illegalLengthFaultsWhateverTheData : Obligations.IllegalLengthFaultsWhateverTheData := by
  intro o len data s hlen
  have hne : len.toNat ≠ 10 := fun h => hlen (BitVec.eq_of_toNat_eq h)
  exact ⟨evalConverter ⟨o, len, data⟩, rfl, rfl, evalConverter_response_of_inLen_ne _ hne⟩

/-! ### Words of the table -/

/-- Settles O13: six fixed words, each evaluated. -/
theorem writtenOutWordsDecode : Obligations.WrittenOutWordsDecode :=
  ⟨rfl, rfl, rfl, rfl, rfl, rfl⟩

end Sys2Proof.Machine
end

section
/-! PROOFS. The codec at admitted widths: the fields of a buffer (R80), the extractor and the packer as inverses (R85, R94), the
two byte orders (R85, R94), and the refusal of every other width pair (R83). -/

namespace Sys2Proof.Machine

open Sys2Proof

/-! ### The extractor and the packer are inverse -/

/-- A buffer spells less than `256` to its length, in either order (R12). -/
theorem unsignedOf_lt (order : ByteOrder) (B : List Byte) : unsignedOf order B < 256 ^ B.length := by
  cases order with
  | little => exact littleValue_lt B
  | big =>
    rw [unsignedOf, bigValueFrom_zero_eq_littleValue_reverse, ← List.length_reverse]
    exact littleValue_lt B.reverse

/-- A packed buffer has the byte count of its format (R90). -/
@[simp] theorem recompose_length (order : ByteOrder) {ew mw : Nat} (f : FloatFields ew mw) :
    (recompose order f).length = Config.byteCount ew mw :=
  bytesOf_length order _ _

/-- A packed buffer spells the packed fields: admitted widths leave no bit of them without a byte (R83, R90). -/
theorem unsignedOf_recompose (order : ByteOrder) {ew mw : Nat} (ha : Config.admitted ew mw = true) (f : FloatFields ew mw) :
    unsignedOf order (recompose order f) = packed f := by
  have hlt : packed f < 256 ^ Config.byteCount ew mw := (packed_lt f).trans_eq (byteCount_of_admitted ha).symm
  rw [recompose, unsignedOf_bytesOf_mod, Nat.mod_eq_of_lt hlt]

/-- `DECOMPOSE` of packed fields gives the fields (R85 (a)). -/
theorem decompose_recompose (order : ByteOrder) {ew mw : Nat} (ha : Config.admitted ew mw = true) (f : FloatFields ew mw) :
    decompose order ew mw (recompose order f) = .ok f := by
  rw [decompose_of_length (recompose_length order f), unsignedOf_recompose order ha, unpack_packed]

/-- Packing the fields cut out of a buffer gives the buffer: admitted widths leave no bit of it outside the fields
(R83, R85 (b)). -/
theorem recompose_unpack_unsignedOf (order : ByteOrder) {ew mw : Nat} {B : List Byte} (ha : Config.admitted ew mw = true)
    (h : B.length = Config.byteCount ew mw) : recompose order (unpack ew mw (unsignedOf order B)) = B := by
  have hlt : unsignedOf order B < 2 ^ (1 + ew + mw) := by
    rw [← byteCount_of_admitted ha, ← h]
    exact unsignedOf_lt order B
  rw [recompose, packed_unpack hlt, ← h, bytesOf_unsignedOf]

/-- Settles O22: fields and the integer they pack determine each other, and so do a buffer and the integer it spells; at admitted
widths both kinds of integer have the same range. -/
theorem codecRoundTrips : Obligations.CodecRoundTrips :=
  fun order _ _ ha => ⟨decompose_recompose order ha, fun _ hB =>
    ⟨_, decompose_of_length hB, recompose_unpack_unsignedOf order ha hB⟩⟩

/-! ### The fields of a buffer -/

/-- Settles O18: the length check decides, and the shifts and masks of R66 are quotients and remainders. -/
theorem decomposeCutsFieldsOutOfTheBuffer : Obligations.DecomposeCutsFieldsOutOfTheBuffer :=
  fun order ew mw B _ => ⟨decompose_of_length_ne, fun hB =>
    ⟨_, decompose_of_length hB, unpack_toNat ew mw (unsignedOf order B)⟩⟩

/-! ### The two byte orders -/

/-- `RECOMPOSE` in big order is the reverse of `RECOMPOSE` in little order (R94 (c)). -/
theorem recompose_big {ew mw : Nat} (f : FloatFields ew mw) : recompose .big f = (recompose .little f).reverse :=
  bigBytes_eq_reverse_littleBytes _ _

/-- Settles O23: `U` and `Bytes` in big order are those in little order of the reversed buffer. -/
theorem codecOrderDuality : Obligations.CodecOrderDuality :=
  fun ew mw _ => ⟨decompose_big ew mw, recompose_big⟩

/-! ### Widths that are not admitted (R83) -/

section unadmitted
variable {ew mw : Nat} (h : Config.admitted ew mw = false)
include h

theorem decode_extractor_of_not_admitted (B : List Byte) : decode ⟨.extractor ew mw, B⟩ = .error .widthsNotAdmitted :=
  if_neg (ne_true_of_eq_false h)

theorem decode_packer_of_not_admitted (B : List Byte) : decode ⟨.packer ew mw, B⟩ = .error .widthsNotAdmitted :=
  if_neg (ne_true_of_eq_false h)

theorem exec_decompose_of_not_admitted (order : ByteOrder) (b : BufferPorts ew mw) (s : State) :
    exec (.decompose order ew mw b) s = .refused .widthsNotAdmitted :=
  if_neg (ne_true_of_eq_false h)

theorem exec_recompose_of_not_admitted (order : ByteOrder) (f : FloatFields ew mw) (s : State) :
    exec (.recompose order ew mw f) s = .refused .widthsNotAdmitted :=
  if_neg (ne_true_of_eq_false h)

end unadmitted

/-- Settles O6: the decoder looks at the widths before the bytes, and the codec's operations look at them before their ports. -/
theorem unadmittedWidthsAreRefused : Obligations.UnadmittedWidthsAreRefused :=
  fun _ _ h =>
    ⟨fun _ B _ hp => step_of_decode_error hp (decode_extractor_of_not_admitted h B),
     fun _ B _ hp => step_of_decode_error hp (decode_packer_of_not_admitted h B),
     fun s order b => exec_decompose_of_not_admitted h order b s,
     fun s order f => exec_recompose_of_not_admitted h order f s⟩

end Sys2Proof.Machine
end

section
/-! PROOFS. The packer's buffer as the integer it spells (R90). -/

namespace Sys2Proof.Machine

open Sys2Proof

/-- Settles O20: the buffer is `Bytes(N, NB, order)` of the packed fields, which at admitted widths fit in its `NB` bytes. -/
theorem recomposePacksFieldsIntoBytes : Obligations.RecomposePacksFieldsIntoBytes :=
  fun order _ _ f ha => ⟨recompose_length order f, unsignedOf_recompose order ha f⟩

end Sys2Proof.Machine
end

section
/-! PROOFS. The table of the classifier in numbers: each class has one row, and a pair `(E, M)` is of a class exactly when it meets
the row's condition (R100, R113). -/

namespace Sys2Proof.Machine

open Sys2Proof

/-- The condition of a class's row on `E`, `M[63:62]` and `M[61:0]` (R102 to R112). -/
def FpClass.InRow (e : BitVec 15) (m : BitVec 64) : FpClass → Prop
  | .zero => e.toNat = 0 ∧ m.toNat = 0
  | .denormal => e.toNat = 0 ∧ m.toNat < 2 ^ 63 ∧ m.toNat ≠ 0
  | .pseudoDenormal => e.toNat = 0 ∧ 2 ^ 63 ≤ m.toNat
  | .pseudoInf => e.toNat = 32767 ∧ m.toNat / 2 ^ 62 = 0 ∧ m.toNat % 2 ^ 62 = 0
  | .pseudoNanLo => e.toNat = 32767 ∧ m.toNat / 2 ^ 62 = 0 ∧ m.toNat % 2 ^ 62 ≠ 0
  | .pseudoNanHi => e.toNat = 32767 ∧ m.toNat / 2 ^ 62 = 1
  | .inf => e.toNat = 32767 ∧ m.toNat / 2 ^ 62 = 2 ∧ m.toNat % 2 ^ 62 = 0
  | .nan => e.toNat = 32767 ∧ m.toNat / 2 ^ 62 = 2 ∧ m.toNat % 2 ^ 62 ≠ 0
  | .indefinite => e.toNat = 32767 ∧ m.toNat / 2 ^ 62 = 3 ∧ m.toNat % 2 ^ 62 = 0
  | .quietNan => e.toNat = 32767 ∧ m.toNat / 2 ^ 62 = 3 ∧ m.toNat % 2 ^ 62 ≠ 0
  | .normal => 0 < e.toNat ∧ e.toNat < 32767

/-- With `E = 0` the value of `M` decides. -/
theorem classify_of_exponent_zero {e : BitVec 15} (m : BitVec 64) (he : e.toNat = 0) :
    classify e m =
      if m.toNat < 2 ^ 63 then if m.toNat = 0 then .zero else .denormal else .pseudoDenormal := by
  obtain rfl : e = 0#15 := BitVec.eq_of_toNat_eq he
  have hzero : m = 0#64 ↔ m.toNat = 0 := BitVec.toNat_inj.symm
  simp only [classify, if_true, integerBit_eq_zero_iff, hzero]

/-- With `E = 32767` the top two bits of `M` decide, and then whether the others are 0. -/
theorem classify_of_exponent_allOnes {e : BitVec 15} (m : BitVec 64) (he : e.toNat = 32767) :
    classify e m =
      if m.toNat / 2 ^ 62 = 0 then if m.toNat % 2 ^ 62 = 0 then .pseudoInf else .pseudoNanLo
      else if m.toNat / 2 ^ 62 = 1 then .pseudoNanHi
      else if m.toNat / 2 ^ 62 = 2 then if m.toNat % 2 ^ 62 = 0 then .inf else .nan
      else if m.toNat % 2 ^ 62 = 0 then .indefinite else .quietNan := by
  obtain rfl : e = 32767#15 := BitVec.eq_of_toNat_eq he
  have hne : (32767#15 : BitVec 15) ≠ 0#15 := by decide
  have hselector (t : BitVec 2) : selector m = t ↔ m.toNat / 2 ^ 62 = t.toNat := by
    rw [← selector_toNat, BitVec.toNat_inj]
  have hlow : low62 m = 0#62 ↔ m.toNat % 2 ^ 62 = 0 := by
    rw [← low62_toNat]
    exact BitVec.toNat_inj.symm
  rw [classify, if_neg hne]
  simp only [if_true, hselector, hlow]
  rfl

/-- Every pair meets the row of its class: the table is total (R113). -/
theorem inRow_classify (e : BitVec 15) (m : BitVec 64) : (classify e m).InRow e m := by
  have hm := m.isLt
  have he := e.isLt
  obtain h0 | ⟨hlo, hhi⟩ | h1 : e.toNat = 0 ∨ (0 < e.toNat ∧ e.toNat < 32767) ∨ e.toNat = 32767 := by omega
  · rw [classify_of_exponent_zero m h0]
    split_ifs
    all_goals
      refine ⟨h0, ?_⟩
      omega
  · rw [classify_of_exponent_between m hlo hhi]
    exact ⟨hlo, hhi⟩
  · rw [classify_of_exponent_allOnes m h1]
    split_ifs
    all_goals
      refine ⟨h1, ?_⟩
      omega

/-- A pair that meets a row is of the row's class, so the order in which the rows are tested cannot matter (R113). -/
theorem classify_of_inRow {e : BitVec 15} {m : BitVec 64} {c : FpClass} (h : c.InRow e m) : classify e m = c := by
  cases c with
  | zero =>
    obtain ⟨he, hm⟩ := h
    rw [classify_of_exponent_zero m he, if_pos (by omega), if_pos hm]
  | denormal =>
    obtain ⟨he, hlt, hne⟩ := h
    rw [classify_of_exponent_zero m he, if_pos hlt, if_neg hne]
  | pseudoDenormal =>
    obtain ⟨he, hle⟩ := h
    rw [classify_of_exponent_zero m he, if_neg (by omega)]
  | pseudoInf =>
    obtain ⟨he, ht, hl⟩ := h
    rw [classify_of_exponent_allOnes m he, if_pos ht, if_pos hl]
  | pseudoNanLo =>
    obtain ⟨he, ht, hl⟩ := h
    rw [classify_of_exponent_allOnes m he, if_pos ht, if_neg hl]
  | pseudoNanHi =>
    obtain ⟨he, ht⟩ := h
    rw [classify_of_exponent_allOnes m he, if_neg (by omega), if_pos ht]
  | inf =>
    obtain ⟨he, ht, hl⟩ := h
    rw [classify_of_exponent_allOnes m he, if_neg (by omega), if_neg (by omega), if_pos ht, if_pos hl]
  | nan =>
    obtain ⟨he, ht, hl⟩ := h
    rw [classify_of_exponent_allOnes m he, if_neg (by omega), if_neg (by omega), if_pos ht, if_neg hl]
  | indefinite =>
    obtain ⟨he, ht, hl⟩ := h
    rw [classify_of_exponent_allOnes m he, if_neg (by omega), if_neg (by omega), if_neg (by omega), if_pos hl]
  | quietNan =>
    obtain ⟨he, ht, hl⟩ := h
    rw [classify_of_exponent_allOnes m he, if_neg (by omega), if_neg (by omega), if_neg (by omega), if_neg hl]
  | normal =>
    obtain ⟨hlo, hhi⟩ := h
    exact classify_of_exponent_between m hlo hhi

theorem classify_eq_iff (e : BitVec 15) (m : BitVec 64) (c : FpClass) : classify e m = c ↔ c.InRow e m :=
  ⟨fun h => h ▸ inRow_classify e m, classify_of_inRow⟩

/-- Settles O24: a pair meets the row of its class, and is of the class of any row it meets. -/
theorem classifyFollowsTheTransitionTable : Obligations.ClassifyFollowsTheTransitionTable := fun e m =>
  ⟨classify_eq_iff e m _, classify_eq_iff e m _, classify_eq_iff e m _, classify_eq_iff e m _, classify_eq_iff e m _,
    classify_eq_iff e m _, classify_eq_iff e m _, classify_eq_iff e m _, classify_eq_iff e m _, classify_eq_iff e m _,
    classify_eq_iff e m _⟩

end Sys2Proof.Machine
end

section
/-! PROOFS. How many pairs `(E, M)` fall in each class and in each outcome of the normalizer: each set is an interval of `M`, or a
rectangle of an interval of `E` and one of `M` (R113, R127). -/

namespace Sys2Proof.Machine

open Sys2Proof

/-! ### Counting vectors by their values -/

/-- Vectors with values in an interval are the numbers in it. -/
def intervalEquiv {w lo n : Nat} (h : lo + n ≤ 2 ^ w) :
    { x : BitVec w // lo ≤ x.toNat ∧ x.toNat < lo + n } ≃ Finset.Ico lo (lo + n) where
  toFun x := ⟨x.1.toNat, Finset.mem_Ico.mpr x.2⟩
  invFun k := ⟨BitVec.ofNat w k, by
    obtain ⟨hlo, hhi⟩ := Finset.mem_Ico.mp k.2
    rw [BitVec.toNat_ofNat, Nat.mod_eq_of_lt (hhi.trans_le h)]
    exact ⟨hlo, hhi⟩⟩
  left_inv x := Subtype.ext ((BitVec.ofNat_toNat w x.1).trans (BitVec.setWidth_eq x.1))
  right_inv k := by
    obtain ⟨-, hhi⟩ := Finset.mem_Ico.mp k.2
    exact Subtype.ext ((BitVec.toNat_ofNat _ _).trans (Nat.mod_eq_of_lt (hhi.trans_le h)))

theorem card_interval {w n : Nat} {P : BitVec w → Prop} (lo : Nat) (h : lo + n ≤ 2 ^ w)
    (hP : ∀ x, P x ↔ lo ≤ x.toNat ∧ x.toNat < lo + n) : Nat.card { x // P x } = n := by
  rw [Nat.card_congr ((Equiv.subtypeEquivRight hP).trans (intervalEquiv h)), Nat.card_eq_fintype_card, Fintype.card_coe,
    Nat.card_Ico, Nat.add_sub_cancel_left]

theorem card_rectangle {v w n k : Nat} {P : BitVec v × BitVec w → Prop} (lo lo' : Nat) (h : lo + n ≤ 2 ^ v)
    (h' : lo' + k ≤ 2 ^ w)
    (hP : ∀ p, P p ↔ (lo ≤ p.1.toNat ∧ p.1.toNat < lo + n) ∧ (lo' ≤ p.2.toNat ∧ p.2.toNat < lo' + k)) :
    Nat.card { p // P p } = n * k := by
  have hprod := Nat.card_congr (Equiv.subtypeProdEquivProd (p := fun x : BitVec v => lo ≤ x.toNat ∧ x.toNat < lo + n)
    (q := fun y : BitVec w => lo' ≤ y.toNat ∧ y.toNat < lo' + k))
  rw [Nat.card_congr (Equiv.subtypeEquivRight hP), hprod, Nat.card_prod, card_interval lo h fun _ => Iff.rfl,
    card_interval lo' h' fun _ => Iff.rfl]

/-! ### The outcomes of the normalizer -/

/-- The four outcomes of the normalizer as regions of `(E, M)` (R127). -/
theorem normalizeOperand_outcome_iff (e : BitVec 15) (m : BitVec 64) :
    (normalizeOperand e m = .fault .unsupported .unnormal ↔ m.toNat < 2 ^ 63) ∧
    (normalizeOperand e m = .fault .outOfRange .tooSmall ↔ 2 ^ 63 ≤ m.toNat ∧ e.toNat ≤ 15359) ∧
    (normalizeOperand e m = .fault .outOfRange .tooLarge ↔ 2 ^ 63 ≤ m.toNat ∧ 17407 ≤ e.toNat) ∧
    ((∃ r, normalizeOperand e m = .ok r) ↔ 2 ^ 63 ≤ m.toNat ∧ 15360 ≤ e.toNat ∧ e.toNat ≤ 17406) := by
  obtain hm | hm := Nat.lt_or_ge m.toNat (2 ^ 63)
  · rw [normalizeOperand_unnormal e hm]
    exact ⟨iff_of_true rfl hm, iff_of_false nofun (by omega), iff_of_false nofun (by omega),
      iff_of_false (not_exists.mpr (raise_ne_ok _)) (by omega)⟩
  obtain hs | hl | ⟨h0, h1⟩ : e.toNat ≤ 15359 ∨ 17407 ≤ e.toNat ∨ 15360 ≤ e.toNat ∧ e.toNat ≤ 17406 := by omega
  · rw [normalizeOperand_tooSmall hm hs]
    exact ⟨iff_of_false nofun (by omega), iff_of_true rfl ⟨hm, hs⟩, iff_of_false nofun (by omega),
      iff_of_false (not_exists.mpr (raise_ne_ok _)) (by omega)⟩
  · rw [normalizeOperand_tooLarge hm hl]
    exact ⟨iff_of_false nofun (by omega), iff_of_false nofun (by omega), iff_of_true rfl ⟨hm, hl⟩,
      iff_of_false (not_exists.mpr (raise_ne_ok _)) (by omega)⟩
  · have hb : integerBit m = 1#1 :=
      (BitVec.eq_zero_or_eq_one _).resolve_left fun h => hm.not_gt ((integerBit_eq_zero_iff m).mp h)
    rw [normalizeOperand_of_range hb h0 h1]
    exact ⟨iff_of_false nofun (by omega), iff_of_false nofun (by omega), iff_of_false nofun (by omega),
      iff_of_true ⟨_, rfl⟩ ⟨hm, h0, h1⟩⟩

/-! ### The counts -/

/-- The mantissas of a class with `E` fixed, when its row is an interval of `M`. -/
theorem card_classify {e : BitVec 15} {c : FpClass} {n : Nat} (lo : Nat) (h : lo + n ≤ 2 ^ 64)
    (hrow : ∀ m : BitVec 64, c.InRow e m ↔ lo ≤ m.toNat ∧ m.toNat < lo + n) :
    Nat.card { m // classify e m = c } = n :=
  card_interval lo h fun m => (classify_eq_iff e m c).trans (hrow m)

/-- The pairs of class `NORMAL` with an outcome of the normalizer, when they are a rectangle. -/
theorem card_normal {Q : BitVec 15 × BitVec 64 → Prop} {n k : Nat} (lo lo' : Nat) (h : lo + n ≤ 2 ^ 15)
    (h' : lo' + k ≤ 2 ^ 64)
    (hQ : ∀ p : BitVec 15 × BitVec 64, (0 < p.1.toNat ∧ p.1.toNat < 32767) ∧ Q p ↔
      (lo ≤ p.1.toNat ∧ p.1.toNat < lo + n) ∧ (lo' ≤ p.2.toNat ∧ p.2.toNat < lo' + k)) :
    Nat.card { p : BitVec 15 × BitVec 64 // classify p.1 p.2 = .normal ∧ Q p } = n * k :=
  card_rectangle lo lo' h h' fun p => (and_congr_left' (classify_eq_iff p.1 p.2 .normal)).trans (hQ p)

/-- Settles O26: with `E` fixed each class is an interval of `M`; inside class `NORMAL` each outcome is a rectangle. -/
theorem classesAndOutcomesAreCounted : Obligations.ClassesAndOutcomesAreCounted := by
  refine ⟨?zero, ?denormal, ?pseudoDenormal, ?pseudoInf, ?pseudoNanLo, ?pseudoNanHi, ?inf, ?nan, ?indefinite, ?quietNan,
    ?normal, ?unnormal, ?tooSmall, ?tooLarge, ?ok⟩
  case zero => exact card_classify 0 (by norm_num) fun m => (and_iff_right rfl).trans (by omega)
  case denormal => exact card_classify 1 (by norm_num) fun m => (and_iff_right rfl).trans (by omega)
  case pseudoDenormal => exact card_classify (2 ^ 63) (by norm_num) fun m => (and_iff_right rfl).trans (by omega)
  case pseudoInf => exact card_classify 0 (by norm_num) fun m => (and_iff_right rfl).trans (by omega)
  case pseudoNanLo => exact card_classify 1 (by norm_num) fun m => (and_iff_right rfl).trans (by omega)
  case pseudoNanHi => exact card_classify (2 ^ 62) (by norm_num) fun m => (and_iff_right rfl).trans (by omega)
  case inf => exact card_classify (2 ^ 63) (by norm_num) fun m => (and_iff_right rfl).trans (by omega)
  case nan => exact card_classify (2 ^ 63 + 1) (by norm_num) fun m => (and_iff_right rfl).trans (by omega)
  case indefinite => exact card_classify (3 * 2 ^ 62) (by norm_num) fun m => (and_iff_right rfl).trans (by omega)
  case quietNan => exact card_classify (3 * 2 ^ 62 + 1) (by norm_num) fun m => (and_iff_right rfl).trans (by omega)
  case normal =>
    refine card_rectangle 1 0 (by norm_num) (by norm_num) fun p => (classify_eq_iff p.1 p.2 .normal).trans ?_
    have hm := p.2.isLt
    rw [FpClass.InRow]
    omega
  case unnormal =>
    refine card_normal 1 0 (by norm_num) (by norm_num) fun p => ?_
    obtain ⟨hunnormal, -, -, -⟩ := normalizeOperand_outcome_iff p.1 p.2
    rw [hunnormal]
    omega
  case tooSmall =>
    refine card_normal 1 (2 ^ 63) (by norm_num) (by norm_num) fun p => ?_
    obtain ⟨-, hsmall, -, -⟩ := normalizeOperand_outcome_iff p.1 p.2
    rw [hsmall]
    omega
  case tooLarge =>
    refine card_normal 17407 (2 ^ 63) (by norm_num) (by norm_num) fun p => ?_
    obtain ⟨-, -, hlarge, -⟩ := normalizeOperand_outcome_iff p.1 p.2
    rw [hlarge]
    omega
  case ok =>
    refine card_normal 15360 (2 ^ 63) (by norm_num) (by norm_num) fun p => ?_
    obtain ⟨-, -, -, hok⟩ := normalizeOperand_outcome_iff p.1 p.2
    rw [hok]
    omega

end Sys2Proof.Machine
end

section
/-! PROOFS. The eleven class rows on the converter's ports: the row's operand, its class on the wire `cls`, and the outcome of the
class on the response (R102 to R112, R138 to R147). -/

namespace Sys2Proof.Machine

open Sys2Proof

/-! ### The `case` of `X2D`, class by class (R138 to R145) -/

section byClass
variable {e : BitVec 15} {m : BitVec 64} (sign : BitVec 1)

theorem convertFields_zero (h : classify e m = .zero) :
    convertFields ⟨sign, e, m⟩ = .ok (⟨sign, 0#11, 0#52⟩, 0#1) := by
  simp only [convertFields, h]

theorem convertFields_denormal (h : classify e m = .denormal) : convertFields ⟨sign, e, m⟩ = raise .denormal := by
  simp only [convertFields, h]

theorem convertFields_pseudoDenormal (h : classify e m = .pseudoDenormal) :
    convertFields ⟨sign, e, m⟩ = raise .pseudoDenormal := by
  simp only [convertFields, h]

theorem convertFields_pseudoInf (h : classify e m = .pseudoInf) :
    convertFields ⟨sign, e, m⟩ = .ok (⟨sign, 2047#11, 0#52⟩, 0#1) := by
  simp only [convertFields, h]

theorem convertFields_pseudoNanLo (h : classify e m = .pseudoNanLo) :
    convertFields ⟨sign, e, m⟩ = .ok (nanFields, 0#1) := by
  simp only [convertFields, h]

theorem convertFields_pseudoNanHi (h : classify e m = .pseudoNanHi) :
    convertFields ⟨sign, e, m⟩ = .ok (nanFields, 0#1) := by
  simp only [convertFields, h]

theorem convertFields_inf (h : classify e m = .inf) :
    convertFields ⟨sign, e, m⟩ = .ok (⟨sign, 2047#11, 0#52⟩, 0#1) := by
  simp only [convertFields, h]

theorem convertFields_nan (h : classify e m = .nan) : convertFields ⟨sign, e, m⟩ = .ok (nanFields, 0#1) := by
  simp only [convertFields, h]

theorem convertFields_indefinite (h : classify e m = .indefinite) :
    convertFields ⟨sign, e, m⟩ = raise .indefinite := by
  simp only [convertFields, h]

theorem convertFields_quietNan (h : classify e m = .quietNan) : convertFields ⟨sign, e, m⟩ = raise .quietNan := by
  simp only [convertFields, h]

theorem convertFields_normal (h : classify e m = .normal) :
    convertFields ⟨sign, e, m⟩ = (normalizeOperand e m).bind fun r =>
      .ok (⟨sign, r.expOut, r.mantOut⟩, r.precisionLost) := by
  simp only [convertFields, h]

end byClass

/-! ### The response to an operand -/

/-- The response to a request whose operand has these fields (R135, R147). -/
def fieldsResponse (f : FloatFields 15 64) : Response :=
  Response.ofVerdict ((convertFields f).bind fun r => .ok (doublePattern r.1, r.2))

theorem fieldsResponse_of_ok {f : FloatFields 15 64} {s lost : BitVec 1} {x : BitVec 11} {y : BitVec 52}
    (h : convertFields f = .ok (⟨s, x, y⟩, lost)) : fieldsResponse f = ⟨0#2, 0#4, lost, s ++ x ++ y⟩ := by
  rw [fieldsResponse, h, append_fields ⟨s, x, y⟩]
  rfl

theorem fieldsResponse_of_raise {f : FloatFields 15 64} {cause : Cause} (h : convertFields f = raise cause) :
    fieldsResponse f = Response.ofFault (causeKind cause) cause := by
  rw [fieldsResponse, h]
  rfl

section rows
variable {i : Instr} {s : State} {sign : BitVec 1} {e : BitVec 15} {m : BitVec 64} {n : BitVec 80} {c : FpClass}

/-- A row that presents an operand whose fields meet the row of the class `c` shows the code of `c` and the response to the
fields. -/
theorem convertsOperand_of_inRow (hexec : exec i s = .next (s.convertOperand (x80 sign e m))) (hn : n = x80 sign e m)
    (hrow : c.InRow e m) : convertsOperand i s n (classCode c) (fieldsResponse ⟨sign, e, m⟩) := by
  rw [hn, ← classify_of_inRow hrow]
  exact convertsOperand_x80 hexec

/-- A row of a class that is converted answers with the fields of its double. -/
theorem convertsOperand_of_ok {s' lost : BitVec 1} {x : BitVec 11} {y : BitVec 52}
    (hexec : exec i s = .next (s.convertOperand (x80 sign e m))) (hn : n = x80 sign e m) (hrow : c.InRow e m)
    (hv : classify e m = c → convertFields ⟨sign, e, m⟩ = .ok (⟨s', x, y⟩, lost)) :
    convertsOperand i s n (classCode c) ⟨0#2, 0#4, lost, s' ++ x ++ y⟩ :=
  fieldsResponse_of_ok (hv (classify_of_inRow hrow)) ▸ convertsOperand_of_inRow hexec hn hrow

/-- A row of a class that is refused answers with its fault. -/
theorem convertsOperand_of_raise {cause : Cause} (hexec : exec i s = .next (s.convertOperand (x80 sign e m)))
    (hn : n = x80 sign e m) (hrow : c.InRow e m)
    (hv : classify e m = c → convertFields ⟨sign, e, m⟩ = raise cause) :
    convertsOperand i s n (classCode c) (Response.ofFault (causeKind cause) cause) :=
  fieldsResponse_of_raise (hv (classify_of_inRow hrow)) ▸ convertsOperand_of_inRow hexec hn hrow

end rows

/-! ### The operands of the rows with a payload, as the table's bit strings put together (R70) -/

theorem append_eq_x80_of_fraction (sign : BitVec 1) (e : BitVec 15) (b : BitVec 1) (frac : BitVec 63) :
    sign ++ (e ++ b) ++ frac = x80 sign e (b ++ frac) := by
  apply BitVec.eq_of_toNat_eq
  rw [append_toNat, append_toNat, append_toNat, x80_toNat, bitFraction_toNat]
  omega

theorem append_eq_x80_of_low (sign : BitVec 1) (e : BitVec 15) (t : BitVec 2) (low : BitVec 62) :
    sign ++ (e ++ t) ++ low = x80 sign e (t ++ low) := by
  apply BitVec.eq_of_toNat_eq
  rw [append_toNat, append_toNat, append_toNat, x80_toNat, selectorLow_toNat]
  omega

/-- The top two bits and the low bits of a mantissa put together, as numbers. -/
theorem selectorLow_div_mod (t : BitVec 2) (low : BitVec 62) :
    (t ++ low : BitVec 64).toNat / 2 ^ 62 = t.toNat ∧ (t ++ low : BitVec 64).toNat % 2 ^ 62 = low.toNat := by
  have hlow := low.isLt
  rw [selectorLow_toNat]
  omega

/-! ### The rows -/

/-- Settles O32: the one pair of the class, with either sign. -/
theorem zeroRowGivesSignedZero : Obligations.ZeroRowGivesSignedZero := by
  intro sign s
  have hn : sign ++ 0#79 = zeroOperand sign := by revert sign; decide
  have hzero : sign ++ 0#63 = sign ++ 0#11 ++ 0#52 := by revert sign; decide
  rw [hzero]
  exact convertsOperand_of_ok (c := .zero) rfl hn ⟨rfl, rfl⟩ (convertFields_zero sign)

/-- Settles O33: the integer bit of the row's mantissa puts it below or above `2^63`, and each class raises its cause. -/
theorem denormalRowsAreUnsupported : Obligations.DenormalRowsAreUnsupported := by
  intro sign frac s
  have hfrac := frac.isLt
  have hlow : (0#1 ++ frac : BitVec 64).toNat = frac.toNat := (bitFraction_toNat 0#1 frac).trans (by simp)
  have hhigh : 2 ^ 63 ≤ (1#1 ++ frac : BitVec 64).toNat := by simp [bitFraction_toNat 1#1 frac]
  constructor
  · intro hne
    exact convertsOperand_of_raise (c := .denormal) (cause := .denormal) rfl
      (append_eq_x80_of_fraction sign 0#15 0#1 frac)
      ⟨rfl, hlow.trans_lt hfrac, hlow.trans_ne (BitVec.toNat_ne_iff_ne.mpr hne)⟩ (convertFields_denormal sign)
  · exact convertsOperand_of_raise (c := .pseudoDenormal) (cause := .pseudoDenormal) rfl
      (append_eq_x80_of_fraction sign 0#15 1#1 frac) ⟨rfl, hhigh⟩ (convertFields_pseudoDenormal sign)

/-- Settles O34: each infinity class is one pair, and its double is the operand's sign before fixed fields. -/
theorem infinityRowsGiveSignedInfinity : Obligations.InfinityRowsGiveSignedInfinity := by
  intro sign s
  have hpseudo : sign ++ 0x7FFF0000000000000000#79 = pseudoInfOperand sign := by revert sign; decide
  have hinf : sign ++ 0x7FFF8000000000000000#79 = infOperand sign := by revert sign; decide
  exact ⟨convertsOperand_of_ok (c := .pseudoInf) rfl hpseudo ⟨rfl, rfl, rfl⟩ (convertFields_pseudoInf sign),
    convertsOperand_of_ok (c := .inf) rfl hinf ⟨rfl, rfl, rfl⟩ (convertFields_inf sign)⟩

/-- Settles O35: the NaN is the one whose fields all three classes select; nothing of the operand is in it. -/
theorem nanRowsGiveOneNan : Obligations.NanRowsGiveOneNan := by
  refine ⟨nanFields.sign ++ nanFields.exponent ++ nanFields.mantissa, by decide, fun sign low s => ⟨?_, ?_, ?_⟩⟩
  · intro hne
    obtain ⟨hdiv, hmod⟩ := selectorLow_div_mod 0b00#2 low
    exact convertsOperand_of_ok (c := .pseudoNanLo) rfl (append_eq_x80_of_low sign 32767#15 0b00#2 low)
      ⟨rfl, hdiv, hmod.trans_ne (BitVec.toNat_ne_iff_ne.mpr hne)⟩ (convertFields_pseudoNanLo sign)
  · obtain ⟨hdiv, -⟩ := selectorLow_div_mod 0b01#2 low
    exact convertsOperand_of_ok (c := .pseudoNanHi) rfl (append_eq_x80_of_low sign 32767#15 0b01#2 low)
      ⟨rfl, hdiv⟩ (convertFields_pseudoNanHi sign)
  · intro hne
    obtain ⟨hdiv, hmod⟩ := selectorLow_div_mod 0b10#2 low
    exact convertsOperand_of_ok (c := .nan) rfl (append_eq_x80_of_low sign 32767#15 0b10#2 low)
      ⟨rfl, hdiv, hmod.trans_ne (BitVec.toNat_ne_iff_ne.mpr hne)⟩ (convertFields_nan sign)

/-- Settles O36: both rows have the top two bits set, the low bits tell them apart, and each class raises its cause. -/
theorem indefiniteAndQuietNanRowsAreOutOfRange : Obligations.IndefiniteAndQuietNanRowsAreOutOfRange := by
  intro sign low s
  have hindefinite : sign ++ 0x7FFFC000000000000000#79 = indefiniteOperand sign := by revert sign; decide
  refine ⟨convertsOperand_of_raise (c := .indefinite) (cause := .indefinite) rfl hindefinite ⟨rfl, rfl, rfl⟩
    (convertFields_indefinite sign), fun hne => ?_⟩
  obtain ⟨hdiv, hmod⟩ := selectorLow_div_mod 0b11#2 low
  exact convertsOperand_of_raise (c := .quietNan) (cause := .quietNan) rfl (append_eq_x80_of_low sign 32767#15 0b11#2 low)
    ⟨rfl, hdiv, hmod.trans_ne (BitVec.toNat_ne_iff_ne.mpr hne)⟩ (convertFields_quietNan sign)

/-- Settles O37: the outcome of `NORMALIZE` passes through, and a result gets the sign before it. -/
theorem normalRowIsNormalizeWithSign : Obligations.NormalRowIsNormalizeWithSign := by
  intro sign e m s h0 h1
  have hv := convertFields_normal sign (classify_of_exponent_between m h0 h1)
  cases hnorm : normalizeOperand e m with
  | ok r =>
    rw [hnorm] at hv
    exact convertsOperand_of_ok (c := .normal) rfl rfl ⟨h0, h1⟩ fun _ => hv
  | fault k c =>
    obtain ⟨rfl, -⟩ := normalizeOperand_eq_fault hnorm
    rw [hnorm] at hv
    exact convertsOperand_of_raise (c := .normal) rfl rfl ⟨h0, h1⟩ fun _ => hv

/-! ### The sign (R114, R149) -/

theorem isNaN_append (s : BitVec 1) (x : BitVec 11) (y : BitVec 52) :
    isNaN (s ++ x ++ y) = (x == 2047#11 && y != 0#52) := by
  rw [append_fields ⟨s, x, y⟩, isNaN, doubleExponent_doublePattern, doubleMantissa_doublePattern]

/-- An exponent that the normalizer accepts does not reach that of infinity (R123). -/
theorem expOut_ne_of_normalizeOperand {e : BitVec 15} {m : BitVec 64} {r : Normalized} (h : normalizeOperand e m = .ok r) :
    r.expOut ≠ 2047#11 := by
  obtain ⟨-, h0, h1, rfl⟩ := normalizeOperand_eq_ok h
  change BitVec.ofInt 11 (eDouble e) ≠ _
  rw [ofInt_eDouble h0, Ne, ← BitVec.toNat_inj, BitVec.toNat_ofNat, BitVec.toNat_ofNat]
  omega

/-- What the `case` of `X2D` can answer, seen from both signs at once: one fault, the one NaN, or one exponent, mantissa and flag
that are no NaN with the operand's sign before them (R114). -/
theorem convertFields_sign_cases (e : BitVec 15) (m : BitVec 64) :
    (∃ c, ∀ s, convertFields ⟨s, e, m⟩ = raise c) ∨ (∀ s, convertFields ⟨s, e, m⟩ = .ok (nanFields, 0#1)) ∨
      ∃ x y lost, (x == 2047#11 && y != 0#52) = false ∧ ∀ s, convertFields ⟨s, e, m⟩ = .ok (⟨s, x, y⟩, lost) := by
  cases hclass : classify e m with
  | zero => exact .inr (.inr ⟨_, _, _, rfl, fun s => convertFields_zero s hclass⟩)
  | denormal => exact .inl ⟨_, fun s => convertFields_denormal s hclass⟩
  | pseudoDenormal => exact .inl ⟨_, fun s => convertFields_pseudoDenormal s hclass⟩
  | pseudoInf => exact .inr (.inr ⟨_, _, _, rfl, fun s => convertFields_pseudoInf s hclass⟩)
  | pseudoNanLo => exact .inr (.inl fun s => convertFields_pseudoNanLo s hclass)
  | pseudoNanHi => exact .inr (.inl fun s => convertFields_pseudoNanHi s hclass)
  | inf => exact .inr (.inr ⟨_, _, _, rfl, fun s => convertFields_inf s hclass⟩)
  | nan => exact .inr (.inl fun s => convertFields_nan s hclass)
  | indefinite => exact .inl ⟨_, fun s => convertFields_indefinite s hclass⟩
  | quietNan => exact .inl ⟨_, fun s => convertFields_quietNan s hclass⟩
  | normal =>
    have hv (s : BitVec 1) := convertFields_normal s hclass
    cases hnorm : normalizeOperand e m with
    | ok r =>
      simp only [hnorm] at hv
      have hfinite := expOut_ne_of_normalizeOperand hnorm
      exact .inr (.inr ⟨_, _, _, by simp [hfinite], hv⟩)
    | fault k c =>
      simp only [hnorm] at hv
      obtain ⟨rfl, -⟩ := normalizeOperand_eq_fault hnorm
      exact .inl ⟨c, hv⟩

/-- The other sign before the same fields differs in bit 63 alone. -/
theorem append_flip (x : BitVec 11) (y : BitVec 52) :
    1#1 ++ x ++ y = 0#1 ++ x ++ y ^^^ 0x8000000000000000#64 := by
  have hxor : (0#1 ++ x ++ y) ^^^ (1#1 ++ 0#11 ++ 0#52) = 1#1 ++ x ++ y := by
    rw [BitVec.xor_append, BitVec.xor_append, BitVec.xor_zero, BitVec.xor_zero]
    rfl
  exact hxor.symm

/-- Settles O49: both signs have one class, and the `case` on it reads the sign only to put it before the result. -/
theorem signSymmetry : Obligations.SignSymmetry := by
  intro e m s
  have request (sign : BitVec 1) : convertsOperand (.x2dLe (sign ++ e ++ m)) s (sign ++ e ++ m)
      (classCode (classify e m)) (fieldsResponse ⟨sign, e, m⟩) :=
    convertsOperand_of_inRow rfl rfl (inRow_classify e m)
  obtain ⟨p, hp, -, hpc, hpr⟩ := request 0#1
  obtain ⟨n, hn, -, hnc, hnr⟩ := request 1#1
  refine ⟨p, n, hp, hn, hpc.trans hnc.symm, ?_⟩
  rw [hpr, hnr]
  obtain ⟨c, h⟩ | h | ⟨x, y, lost, hfinite, h⟩ := convertFields_sign_cases e m
  · rw [fieldsResponse_of_raise (h 0#1), fieldsResponse_of_raise (h 1#1)]
    exact ⟨rfl, rfl, rfl, fun _ _ => rfl, fun hok => absurd hok (ofFault_status_ne _ c)⟩
  · rw [fieldsResponse_of_ok (h 0#1), fieldsResponse_of_ok (h 1#1)]
    exact ⟨rfl, rfl, rfl, fun _ _ => rfl, fun _ hnan => absurd hnan (by decide)⟩
  · rw [fieldsResponse_of_ok (h 0#1), fieldsResponse_of_ok (h 1#1)]
    refine ⟨rfl, rfl, rfl, fun _ hnan => ?_, fun _ _ => append_flip x y⟩
    rw [isNaN_append, hfinite] at hnan
    cases hnan

end Sys2Proof.Machine
end

section
/-! PROOFS. The normalizer's outcome in numbers (R120, R123, R124, R128), its flag apart from its other outputs (R125), and the
rows `NORMALIZE.*` that end in a fault (R122, R123, R126). -/

namespace Sys2Proof.Machine

open Sys2Proof

/-! ### The outcome `Ok` -/

/-- The integer bit is set exactly in the upper half of the mantissas (R60). -/
theorem integerBit_eq_one_iff (m : BitVec 64) : integerBit m = 1#1 ↔ 2 ^ 63 ≤ m.toNat := by
  have hm := m.isLt
  rw [← BitVec.toNat_inj, integerBit_toNat, BitVec.toNat_ofNat]
  omega

/-- Which operands `NORMALIZE` accepts, and the fields it then answers (R120, R124). -/
theorem normalizeOperand_eq_ok_iff {e : BitVec 15} {m : BitVec 64} {r : Normalized} :
    normalizeOperand e m = .ok r ↔ 2 ^ 63 ≤ m.toNat ∧ 15360 ≤ e.toNat ∧ e.toNat ≤ 17406 ∧
      r = ⟨BitVec.ofNat 11 (e.toNat - 15360), m.extractLsb' 11 52, precisionLost m⟩ := by
  constructor
  · intro h
    obtain ⟨hb, h0, h1, hr⟩ := normalizeOperand_eq_ok h
    rw [ofInt_eDouble h0, mant52_eq_extractLsb'] at hr
    exact ⟨(integerBit_eq_one_iff m).mp hb, h0, h1, hr⟩
  · rintro ⟨hm, h0, h1, rfl⟩
    rw [normalizeOperand_of_range ((integerBit_eq_one_iff m).mpr hm) h0 h1, ofInt_eDouble h0, mant52_eq_extractLsb']

/-- The slice `M[62:11]` as a number (R124). -/
theorem extractLsb'_fraction_toNat (m : BitVec 64) : (m.extractLsb' 11 52).toNat = m.toNat % 2 ^ 63 / 2 ^ 11 := by
  rw [← mant52_eq_extractLsb', mant52_toNat]

theorem discarded_eq_zero_iff (m : BitVec 64) : discarded m = 0#11 ↔ m.toNat % 2 ^ 11 = 0 := by
  rw [← BitVec.toNat_inj, discarded_toNat, BitVec.toNat_ofNat, Nat.zero_mod]

/-- Settles O27: the bounds on `d` are bounds on `E`, and each outcome is the one of its region. -/
theorem normalizeFollowsItsSteps : Obligations.NormalizeFollowsItsSteps := by
  intro e m d hd
  refine ⟨normalizeOperand_unnormal e, fun hm hneg => normalizeOperand_tooSmall hm (by omega),
    fun hm hbig => normalizeOperand_tooLarge hm (by omega), fun hm h0 h1 => ?_⟩
  have hok := normalizeOperand_eq_ok_iff.mpr ⟨hm, (by omega : 15360 ≤ e.toNat), by omega, rfl⟩
  refine ⟨_, hok, ?exponent, ?mantissa, (normalized_flag_iff hok).trans (discarded_eq_zero_iff m).not⟩
  case exponent =>
    rw [BitVec.toNat_ofNat]
    omega
  case mantissa => exact extractLsb'_fraction_toNat m

/-- Settles O29: `E = 17406` is the last accepted exponent, and `E - 15360` is then 2046. -/
theorem normalizeNeverReachesInfinity : Obligations.NormalizeNeverReachesInfinity := by
  intro e m hm
  refine ⟨normalizeOperand_tooLarge hm, fun he => ?_, fun r => expOut_ne_of_normalizeOperand⟩
  exact ⟨_, normalizeOperand_eq_ok_iff.mpr ⟨hm, by omega, by omega, rfl⟩, by rw [he]⟩

/-- Settles O30: with the integer bit set, `M[63:11]` is `2^52` plus `M[62:11]`, and division rounds down. -/
theorem normalizeTruncatesTheFraction : Obligations.NormalizeTruncatesTheFraction := by
  intro e m r h
  obtain ⟨hm, -, -, rfl⟩ := normalizeOperand_eq_ok_iff.mp h
  have hmant := extractLsb'_fraction_toNat m
  have hlt := m.isLt
  refine ⟨rfl, ?lower, ?upper, fun m' r' h' => ?_, fun e' m' r' hslice h' => ?_⟩
  case lower =>
    rw [hmant]
    omega
  case upper =>
    rw [hmant]
    omega
  · obtain ⟨-, -, -, rfl⟩ := normalizeOperand_eq_ok_iff.mp h'
    rfl
  · obtain ⟨-, -, -, rfl⟩ := normalizeOperand_eq_ok_iff.mp h'
    exact hslice

/-! ### The flag and the other outputs (R125) -/

/-- The flag on the ports is 1 exactly when the outcome is `Ok` and a dropped bit is set. -/
theorem evalNormalizer_flag_iff (e : BitVec 15) (m : BitVec 64) : (evalNormalizer e m).precisionLost = 1#1 ↔
    (∃ r : Normalized, normalizeOperand e m = .ok r) ∧ m.extractLsb' 0 11 ≠ 0#11 := by
  cases h : normalizeOperand e m with
  | ok r =>
    rw [evalNormalizer_of_ok h, and_iff_right ⟨r, rfl⟩]
    exact normalized_flag_iff h
  | fault k c =>
    obtain ⟨rfl, -⟩ := normalizeOperand_eq_fault h
    rw [evalNormalizer_of_raise h]
    exact iff_of_false (show (0#1 : BitVec 1) ≠ 1#1 by decide) fun ⟨⟨_, hr⟩, _⟩ => nomatch hr

/-- The integer bit and the mantissa of the double are cut out of `M[63:11]`. -/
theorem kept_fields_eq {m m' : BitVec 64} (h : m'.extractLsb' 11 53 = m.extractLsb' 11 53) :
    integerBit m' = integerBit m ∧ mant52 m' = mant52 m := by
  have hdiv (x : BitVec 64) : (x.extractLsb' 11 53).toNat = x.toNat / 2 ^ 11 := by
    have hx := x.isLt
    rw [BitVec.extractLsb'_toNat, Nat.shiftRight_eq_div_pow]
    omega
  have hkept : m'.toNat / 2 ^ 11 = m.toNat / 2 ^ 11 := by rw [← hdiv, h, hdiv]
  constructor
  · apply BitVec.eq_of_toNat_eq
    rw [integerBit_toNat, integerBit_toNat]
    omega
  · apply BitVec.eq_of_toNat_eq
    rw [mant52_toNat, mant52_toNat]
    omega

/-- Of a mantissa with the same `M[63:11]` only the flag of a success can differ. -/
theorem normalizeOperand_of_kept_eq (e : BitVec 15) {m m' : BitVec 64}
    (h : m'.extractLsb' 11 53 = m.extractLsb' 11 53) :
    normalizeOperand e m' = (normalizeOperand e m).bind fun r => .ok { r with precisionLost := precisionLost m' } := by
  obtain ⟨hbit, hmant⟩ := kept_fields_eq h
  simp only [normalizeOperand, hbit, hmant]
  split_ifs <;> rfl

/-- On the ports, too, only the flag can differ, besides the input. -/
theorem evalNormalizer_of_kept_eq (e : BitVec 15) {m m' : BitVec 64}
    (h : m'.extractLsb' 11 53 = m.extractLsb' 11 53) :
    ∃ flag, evalNormalizer e m' = { evalNormalizer e m with mantissa := m', precisionLost := flag } := by
  have hagree := normalizeOperand_of_kept_eq e h
  cases hv : normalizeOperand e m with
  | ok r =>
    rw [hv] at hagree
    exact ⟨precisionLost m', by rw [evalNormalizer_of_ok hagree, evalNormalizer_of_ok hv]⟩
  | fault k c =>
    obtain ⟨rfl, -⟩ := normalizeOperand_eq_fault hv
    rw [hv] at hagree
    exact ⟨0#1, by rw [evalNormalizer_of_raise hagree, evalNormalizer_of_raise hv]⟩

/-- Settles O31: the flag follows the outcome and `M[10:0]`, and every other output follows `E` and `M[63:11]`. -/
theorem precisionLossIffDroppedBits : Obligations.PrecisionLossIffDroppedBits := by
  intro e m m' s h
  obtain ⟨flag, hports⟩ := evalNormalizer_of_kept_eq e h
  refine ⟨evalNormalizer e m, evalNormalizer e m', exec_normalize e m s, exec_normalize e m' s,
    evalNormalizer_flag_iff e m, ?_⟩
  rw [hports]
  exact ⟨rfl, rfl, rfl, rfl, rfl⟩

/-! ### The rows that end in a fault -/

/-- The operand of a row inside class `NORMAL`, as the table's bit strings put together (R70). -/
theorem append_eq_x80_of_bit (sign : BitVec 1) (e : BitVec 15) (b : BitVec 1) (frac : BitVec 63) :
    sign ++ e ++ b ++ frac = x80 sign e (b ++ frac) :=
  (congrArg (· ++ frac) BitVec.append_assoc).trans (append_eq_x80_of_fraction sign e b frac)

/-- A row inside class `NORMAL` whose operand the normalizer refuses answers with that fault (R145, R147). -/
theorem convertsOperand_of_normalizeOperand_raise {i : Instr} {s : State} {sign b : BitVec 1} {e : BitVec 15}
    {frac : BitVec 63} {cause : Cause} (hexec : exec i s = .next (s.convertOperand (x80 sign e (b ++ frac))))
    (h0 : 0 < e.toNat) (h1 : e.toNat < 32767) (hnorm : normalizeOperand e (b ++ frac) = raise cause) :
    convertsOperand i s (sign ++ e ++ b ++ frac) 10#4 (Response.ofFault (causeKind cause) cause) := by
  refine convertsOperand_of_raise (c := .normal) hexec (append_eq_x80_of_bit sign e b frac) ⟨h0, h1⟩ fun hclass => ?_
  rw [convertFields_normal sign hclass, hnorm]
  rfl

/-- Settles O38: the integer bit of the row's mantissa and its range of `E` decide which cause the normalizer raises. -/
theorem normalizerFaultRowsFault : Obligations.NormalizerFaultRowsFault := by
  intro sign e frac s
  have hclear : (0#1 ++ frac : BitVec 64).toNat < 2 ^ 63 := (integerBit_eq_zero_iff _).mp (integerBit_append 0#1 frac)
  have hset : 2 ^ 63 ≤ (1#1 ++ frac : BitVec 64).toNat := (integerBit_eq_one_iff _).mp (integerBit_append 1#1 frac)
  refine ⟨fun h0 h1 => ?unnormal, fun h0 h1 => ?tooSmall, fun h0 h1 => ?tooLarge⟩
  case unnormal => exact convertsOperand_of_normalizeOperand_raise rfl h0 h1 (normalizeOperand_unnormal e hclear)
  case tooSmall =>
    exact convertsOperand_of_normalizeOperand_raise rfl h0 (by omega) (normalizeOperand_tooSmall hset h1)
  case tooLarge =>
    exact convertsOperand_of_normalizeOperand_raise rfl (by omega) (by omega) (normalizeOperand_tooLarge hset h0)

end Sys2Proof.Machine
end

section
/-! PROOFS. `X2D` of a buffer, by the fields it decomposes to (R137, R139, R140, R143 to R145); the summary table over the
integer a buffer spells (R148); and which operands give the special exponent fields of a double (R149). -/

namespace Sys2Proof.Machine

open Sys2Proof

/-! ### `X2D` by the outcome of its `case` -/

/-- Settles O40: the length is tested before the bytes are read. -/
theorem wrongLengthFaultsBeforeAnythingElse : Obligations.WrongLengthFaultsBeforeAnythingElse :=
  fun _ _ => x2d_of_length_ne

section decomposed
variable {order : ByteOrder} {B : List Byte} {f : FloatFields 15 64}

/-- `X2D` of a buffer that decomposes is the `case` on its fields (R135). -/
theorem x2d_of_decompose (hf : decompose order 15 64 B = .ok f) :
    x2d order B = (convertFields f).bind fun r => .ok (doublePattern r.1, r.2) := by
  obtain ⟨hlength, rfl⟩ := decompose_eq_ok hf
  exact x2d_of_length hlength

theorem x2d_of_convertFields_raise {cause : Cause} (hf : decompose order 15 64 B = .ok f)
    (h : convertFields f = raise cause) : x2d order B = raise cause := by
  rw [x2d_of_decompose hf, h]
  rfl

theorem x2d_of_convertFields_ok {s lost : BitVec 1} {x : BitVec 11} {y : BitVec 52}
    (hf : decompose order 15 64 B = .ok f) (h : convertFields f = .ok (⟨s, x, y⟩, lost)) :
    x2d order B = .ok (s ++ x ++ y, lost) := by
  rw [x2d_of_decompose hf, h, append_fields ⟨s, x, y⟩]
  rfl

/-- A result of `X2D` is the pattern of the fields that the `case` gives. -/
theorem x2d_eq_ok {v : BitVec 64} {lost : BitVec 1} (hf : decompose order 15 64 B = .ok f)
    (h : x2d order B = .ok (v, lost)) : ∃ g, convertFields f = .ok (g, lost) ∧ v = doublePattern g := by
  rw [x2d_of_decompose hf] at h
  obtain ⟨⟨g, flag⟩, hg, h⟩ := Verdict.bind_eq_ok h
  injection h with h
  obtain ⟨hv, rfl⟩ := Prod.mk.inj h
  exact ⟨g, hg, hv.symm⟩

end decomposed

/-- Settles O41: with `E = 0` the integer bit tells the two classes apart, and each raises its cause. -/
theorem denormalOperandsAreUnsupported : Obligations.DenormalOperandsAreUnsupported := by
  intro order B f hf he
  have hzero : f.exponent.toNat = 0 := congrArg BitVec.toNat he
  constructor
  · intro hbit hne
    have hclass := classify_of_inRow (c := .denormal)
      ⟨hzero, (integerBit_eq_zero_iff f.mantissa).mp hbit, BitVec.toNat_ne_iff_ne.mpr hne⟩
    exact x2d_of_convertFields_raise hf (convertFields_denormal f.sign hclass)
  · intro hbit
    have hclass := classify_of_inRow (c := .pseudoDenormal) ⟨hzero, (integerBit_eq_one_iff f.mantissa).mp hbit⟩
    exact x2d_of_convertFields_raise hf (convertFields_pseudoDenormal f.sign hclass)

/-- Settles O42: both classes have the top two bits of `M` set, and the low bits tell them apart. -/
theorem indefiniteAndQuietNanOperandsAreOutOfRange : Obligations.IndefiniteAndQuietNanOperandsAreOutOfRange := by
  intro order B f hf he
  have hallOnes : f.exponent.toNat = 32767 := congrArg BitVec.toNat he
  constructor
  · intro hm
    have hclass := classify_of_inRow (e := f.exponent) (m := f.mantissa) (c := .indefinite)
      ⟨hallOnes, by rw [hm]; rfl, by rw [hm]; rfl⟩
    exact x2d_of_convertFields_raise hf (convertFields_indefinite f.sign hclass)
  · intro hselector hlow
    have htop : f.mantissa.toNat / 2 ^ 62 = 3 := (selector_toNat f.mantissa).symm.trans (congrArg BitVec.toNat hselector)
    have hrest : f.mantissa.toNat % 2 ^ 62 ≠ 0 :=
      (low62_toNat f.mantissa).symm.trans_ne (BitVec.toNat_ne_iff_ne.mpr hlow)
    have hclass := classify_of_inRow (c := .quietNan) ⟨hallOnes, htop, hrest⟩
    exact x2d_of_convertFields_raise hf (convertFields_quietNan f.sign hclass)

/-- Settles O43: for class `NORMAL` the `case` is the normalizer's outcome, its result put behind the sign. -/
theorem normalOperandsAreNormalizedWithSign : Obligations.NormalOperandsAreNormalizedWithSign := by
  intro order B f hf h0 h1
  have hv := convertFields_normal f.sign (classify_of_exponent_between f.mantissa h0 h1)
  constructor
  · intro k c hnorm
    obtain ⟨rfl, -⟩ := normalizeOperand_eq_fault hnorm
    rw [hnorm] at hv
    exact x2d_of_convertFields_raise hf hv
  · intro r hnorm
    rw [hnorm] at hv
    exact x2d_of_convertFields_ok hf hv

/-! ### The summary table (R148) -/

/-- The ports answer a buffer of ten bytes with the response to the fields it spells. -/
theorem evalConverter_presentBuffer_of_length {order : ByteOrder} {B : List Byte} (h : B.length = 10) :
    (evalConverter (presentBuffer order B)).response = fieldsResponse (unpack 15 64 (unsignedOf order B)) := by
  rw [portsRefineTheFunction order B, x2d_of_length h, fieldsResponse]

/-- The ports answer any other buffer with the length fault. -/
theorem evalConverter_presentBuffer_of_length_ne {order : ByteOrder} {B : List Byte} (h : B.length ≠ 10) :
    (evalConverter (presentBuffer order B)).response = Response.ofFault .invalidLength .invalidLength := by
  rw [portsRefineTheFunction order B, x2d_of_length_ne h]
  rfl

/-- The fields of ten bytes, as the quotients and remainders of the integer they spell (R60). -/
theorem unpack_unsignedOf_toNat {order : ByteOrder} {B : List Byte} (h : B.length = 10) :
    unsignedOf order B / 2 ^ 79 = (unpack 15 64 (unsignedOf order B)).sign.toNat ∧
    unsignedOf order B / 2 ^ 64 % 2 ^ 15 = (unpack 15 64 (unsignedOf order B)).exponent.toNat ∧
    unsignedOf order B % 2 ^ 64 = (unpack 15 64 (unsignedOf order B)).mantissa.toNat := by
  obtain ⟨hsign, hexp, hmant⟩ := unpack_toNat 15 64 (unsignedOf order B)
  have hlt := unsignedOf_lt order B
  rw [h] at hlt
  rw [hsign]
  exact ⟨by omega, hexp.symm, hmant.symm⟩

/-- The fields of a double put together, from their numbers (R61). -/
theorem append_eq_ofNat (s : BitVec 1) (x : BitVec 11) (y : BitVec 52) :
    s ++ x ++ y = BitVec.ofNat 64 (s.toNat * 2 ^ 63 + x.toNat * 2 ^ 52 + y.toNat) := by
  rw [append_fields ⟨s, x, y⟩, ← doublePattern_toNat ⟨s, x, y⟩, BitVec.ofNat_toNat, BitVec.setWidth_eq]

/-- The flag by the value of the mantissa (R125). -/
theorem precisionLost_eq_ofBool_mod (m : BitVec 64) : precisionLost m = BitVec.ofBool (m.toNat % 2 ^ 11 != 0) := by
  by_cases h : m.toNat % 2 ^ 11 = 0
  · rw [precisionLost, if_pos ((discarded_eq_zero_iff m).mpr h), h]; rfl
  · rw [precisionLost, if_neg (mt (discarded_eq_zero_iff m).mp h), bne_iff_ne.mpr h]; rfl

section responses
variable (f : FloatFields 15 64)

/-- An operand in the row of a refused class gets the fault of the class. -/
theorem fieldsResponse_of_refused {c : FpClass} {cause : Cause} (hrow : c.InRow f.exponent f.mantissa)
    (hv : classify f.exponent f.mantissa = c → convertFields f = raise cause) :
    fieldsResponse f = Response.ofFault (causeKind cause) cause :=
  fieldsResponse_of_raise (hv (classify_of_inRow hrow))

/-- An infinity, by its row, gets the infinity of its sign. -/
theorem fieldsResponse_of_infinity (he : f.exponent.toNat = 32767) (hm : f.mantissa.toNat = 0 ∨ f.mantissa.toNat = 2 ^ 63) :
    fieldsResponse f = ⟨0#2, 0#4, 0#1, BitVec.ofNat 64 (f.sign.toNat * 2 ^ 63 + 2047 * 2 ^ 52)⟩ := by
  have hv : convertFields f = .ok (⟨f.sign, 2047#11, 0#52⟩, 0#1) := by
    obtain hm | hm := hm
    · exact convertFields_pseudoInf _ (classify_of_inRow (c := .pseudoInf) ⟨he, by omega, by omega⟩)
    · exact convertFields_inf _ (classify_of_inRow (c := .inf) ⟨he, by omega, by omega⟩)
  rw [fieldsResponse_of_ok hv, append_eq_ofNat]
  simp

/-- A mantissa of one of the three NaN rows gets the one NaN. -/
theorem fieldsResponse_of_nan (he : f.exponent.toNat = 32767) (h0 : 0 < f.mantissa.toNat) (hne : f.mantissa.toNat ≠ 2 ^ 63)
    (h1 : f.mantissa.toNat < 3 * 2 ^ 62) : fieldsResponse f = ⟨0#2, 0#4, 0#1, 0x7FF8000000000000#64⟩ := by
  have hv : convertFields f = .ok (nanFields, 0#1) := by
    obtain hlo | hhi | hnan :
        f.mantissa.toNat / 2 ^ 62 = 0 ∨ f.mantissa.toNat / 2 ^ 62 = 1 ∨ f.mantissa.toNat / 2 ^ 62 = 2 := by omega
    · exact convertFields_pseudoNanLo _ (classify_of_inRow (c := .pseudoNanLo) ⟨he, hlo, by omega⟩)
    · exact convertFields_pseudoNanHi _ (classify_of_inRow (c := .pseudoNanHi) ⟨he, hhi⟩)
    · exact convertFields_nan _ (classify_of_inRow (c := .nan) ⟨he, hnan, by omega⟩)
  rw [fieldsResponse_of_ok hv]
  decide

/-- An operand of class `NORMAL` that the normalizer refuses gets its fault. -/
theorem fieldsResponse_of_normalizeOperand_raise {cause : Cause} (h0 : 0 < f.exponent.toNat) (h1 : f.exponent.toNat < 32767)
    (hnorm : normalizeOperand f.exponent f.mantissa = raise cause) :
    fieldsResponse f = Response.ofFault (causeKind cause) cause := by
  have hv := convertFields_normal f.sign (classify_of_exponent_between f.mantissa h0 h1)
  rw [hnorm] at hv
  exact fieldsResponse_of_raise hv

/-- An operand that the normalizer accepts gets the truncated double and the flag of its dropped bits. -/
theorem fieldsResponse_of_range (h0 : 15360 ≤ f.exponent.toNat) (h1 : f.exponent.toNat ≤ 17406)
    (hm : 2 ^ 63 ≤ f.mantissa.toNat) :
    fieldsResponse f = ⟨0#2, 0#4, BitVec.ofBool (f.mantissa.toNat % 2 ^ 11 != 0), BitVec.ofNat 64
      (f.sign.toNat * 2 ^ 63 + (f.exponent.toNat - 15360) * 2 ^ 52 + f.mantissa.toNat % 2 ^ 63 / 2 ^ 11)⟩ := by
  have hv := convertFields_normal f.sign (classify_of_exponent_between (e := f.exponent) f.mantissa (by omega) (by omega))
  rw [normalizeOperand_eq_ok_iff.mpr ⟨hm, h0, h1, rfl⟩] at hv
  have hexp : (BitVec.ofNat 11 (f.exponent.toNat - 15360)).toNat = f.exponent.toNat - 15360 := by
    rw [BitVec.toNat_ofNat]
    omega
  rw [fieldsResponse_of_ok hv, append_eq_ofNat, hexp, extractLsb'_fraction_toNat, precisionLost_eq_ofBool_mod]

end responses

/-- Settles O47: a buffer of ten bytes is answered by its fields, and each row of the table is a class, or inside class
`NORMAL` an outcome of the normalizer. -/
theorem summaryTableHolds : Obligations.SummaryTableHolds := by
  intro order B sign E M r hr hsign hE hM
  refine ⟨fun h => hr.trans (evalConverter_presentBuffer_of_length_ne h), fun h => ?_⟩
  rw [evalConverter_presentBuffer_of_length h] at hr
  obtain ⟨hs, he, hm⟩ := unpack_unsignedOf_toNat (order := order) h
  rw [hs] at hsign
  rw [he] at hE
  rw [hm] at hM
  generalize unpack 15 64 (unsignedOf order B) = f at hr hsign hE hM
  subst hr hsign hE hM
  refine ⟨fun he hm => ?zero, fun he h0 h1 => ?denormal, fun he hm => ?pseudoDenormal, fun he hm => ?pseudoInf,
    fun he h0 h1 => ?pseudoNan, fun he hm => ?inf, fun he h0 h1 => ?nan, fun he hm => ?indefinite, fun he hm => ?quietNan,
    fun h0 h1 hm => ?unnormal, fun h0 h1 hm => ?tooSmall, fun h0 h1 hm => ?tooLarge, fun h0 h1 hm => ?ok⟩
  case zero =>
    rw [fieldsResponse_of_ok (convertFields_zero _ (classify_of_inRow (c := .zero) ⟨he, hm⟩)), append_eq_ofNat]
    simp
  case denormal => exact fieldsResponse_of_refused f (c := .denormal) ⟨he, h1, h0.ne'⟩ (convertFields_denormal _)
  case pseudoDenormal => exact fieldsResponse_of_refused f (c := .pseudoDenormal) ⟨he, hm⟩ (convertFields_pseudoDenormal _)
  case pseudoInf => exact fieldsResponse_of_infinity f he (.inl hm)
  case pseudoNan => exact fieldsResponse_of_nan f he h0 (by omega) (by omega)
  case inf => exact fieldsResponse_of_infinity f he (.inr hm)
  case nan => exact fieldsResponse_of_nan f he (by omega) (by omega) h1
  case indefinite => exact fieldsResponse_of_refused f (c := .indefinite) ⟨he, by omega, by omega⟩ (convertFields_indefinite _)
  case quietNan =>
    have hlt := f.mantissa.isLt
    exact fieldsResponse_of_refused f (c := .quietNan) ⟨he, by omega, by omega⟩ (convertFields_quietNan _)
  case unnormal =>
    exact fieldsResponse_of_normalizeOperand_raise f h0 h1 (normalizeOperand_unnormal _ hm)
  case tooSmall =>
    exact fieldsResponse_of_normalizeOperand_raise f h0 (by omega) (normalizeOperand_tooSmall hm h1)
  case tooLarge =>
    exact fieldsResponse_of_normalizeOperand_raise f (by omega) (by omega) (normalizeOperand_tooLarge hm h0)
  case ok => exact fieldsResponse_of_range f h0 h1 hm

/-! ### The special exponent fields (R149) -/

/-- The three classes that give the NaN (R141). -/
def FpClass.GivesNaN (c : FpClass) : Prop := c = .pseudoNanLo ∨ c = .pseudoNanHi ∨ c = .nan

/-- What the `case` of `X2D` answers when it succeeds: by class a zero, an infinity, the NaN, or the normalizer's result. -/
theorem convertFields_eq_ok {f : FloatFields 15 64} {v : FloatFields 11 52 × BitVec 1} (h : convertFields f = .ok v) :
    (classify f.exponent f.mantissa = .zero ∧ v = (⟨f.sign, 0#11, 0#52⟩, 0#1)) ∨
    ((classify f.exponent f.mantissa = .pseudoInf ∨ classify f.exponent f.mantissa = .inf) ∧
      v = (⟨f.sign, 2047#11, 0#52⟩, 0#1)) ∨
    ((classify f.exponent f.mantissa).GivesNaN ∧ v = (nanFields, 0#1)) ∨
    (classify f.exponent f.mantissa = .normal ∧ ∃ r, normalizeOperand f.exponent f.mantissa = .ok r ∧
      v = (⟨f.sign, r.expOut, r.mantOut⟩, r.precisionLost)) := by
  cases hclass : classify f.exponent f.mantissa with
  | zero =>
    cases (convertFields_zero f.sign hclass).symm.trans h
    exact .inl ⟨rfl, rfl⟩
  | pseudoInf =>
    cases (convertFields_pseudoInf f.sign hclass).symm.trans h
    exact .inr (.inl ⟨.inl rfl, rfl⟩)
  | inf =>
    cases (convertFields_inf f.sign hclass).symm.trans h
    exact .inr (.inl ⟨.inr rfl, rfl⟩)
  | pseudoNanLo =>
    cases (convertFields_pseudoNanLo f.sign hclass).symm.trans h
    exact .inr (.inr (.inl ⟨.inl rfl, rfl⟩))
  | pseudoNanHi =>
    cases (convertFields_pseudoNanHi f.sign hclass).symm.trans h
    exact .inr (.inr (.inl ⟨.inr (.inl rfl), rfl⟩))
  | nan =>
    cases (convertFields_nan f.sign hclass).symm.trans h
    exact .inr (.inr (.inl ⟨.inr (.inr rfl), rfl⟩))
  | normal =>
    rw [convertFields_normal f.sign hclass] at h
    obtain ⟨r, hr, h⟩ := Verdict.bind_eq_ok h
    cases h
    exact .inr (.inr (.inr ⟨rfl, r, hr, rfl⟩))
  | denormal => cases (convertFields_denormal f.sign hclass).symm.trans h
  | pseudoDenormal => cases (convertFields_pseudoDenormal f.sign hclass).symm.trans h
  | indefinite => cases (convertFields_indefinite f.sign hclass).symm.trans h
  | quietNan => cases (convertFields_quietNan f.sign hclass).symm.trans h

/-- An infinity of the extended format, by the numbers of its fields (R105, R108). -/
theorem infinity_row {e : BitVec 15} {m : BitVec 64} (h : classify e m = .pseudoInf ∨ classify e m = .inf) :
    e.toNat = 32767 ∧ (m.toNat = 0 ∨ m.toNat = 2 ^ 63) := by
  obtain h | h := h
  all_goals
    have hrow := (classify_eq_iff e m _).mp h
    rw [FpClass.InRow] at hrow
    omega

/-- A class that gives the NaN has `E = 32767` and the mantissa of no infinity (R106, R107, R109). -/
theorem FpClass.GivesNaN.row {e : BitVec 15} {m : BitVec 64} (h : (classify e m).GivesNaN) :
    e.toNat = 32767 ∧ m.toNat ≠ 0 ∧ m.toNat ≠ 2 ^ 63 := by
  obtain h | h | h := h
  all_goals
    have hrow := (classify_eq_iff e m _).mp h
    rw [FpClass.InRow] at hrow
    omega

/-- The normalizer's exponent is 0 for the least accepted `E` alone (R121, decision D15). -/
theorem expOut_eq_zero_iff {e : BitVec 15} {m : BitVec 64} {r : Normalized} (h : normalizeOperand e m = .ok r) :
    r.expOut = 0#11 ↔ e.toNat = 15360 := by
  obtain ⟨-, h0, h1, rfl⟩ := normalizeOperand_eq_ok_iff.mp h
  rw [← BitVec.toNat_inj, BitVec.toNat_ofNat, BitVec.toNat_ofNat]
  omega

/-- Settles O50: class by class the fields of the result are fixed, and the normalizer's exponent is `E - 15360`, which is 2047
for no accepted `E` and 0 for `E = 15360` alone. -/
theorem resultExponentFieldsAreAccountedFor : Obligations.ResultExponentFieldsAreAccountedFor := by
  intro order B v lost f hf hx
  obtain ⟨⟨s, x, y⟩, hg, rfl⟩ := x2d_eq_ok hf hx
  have hinf : f.exponent = 32767#15 ↔ f.exponent.toNat = 32767 := BitVec.toNat_inj.symm
  have hzero : f.exponent = 0#15 ↔ f.exponent.toNat = 0 := BitVec.toNat_inj.symm
  have hleast : f.exponent = 15360#15 ↔ f.exponent.toNat = 15360 := BitVec.toNat_inj.symm
  have hclear : f.mantissa = 0#64 ↔ f.mantissa.toNat = 0 := BitVec.toNat_inj.symm
  have htop : f.mantissa = 0x8000000000000000#64 ↔ f.mantissa.toNat = 2 ^ 63 := BitVec.toNat_inj.symm
  rw [isNaN, doubleExponent_doublePattern, doubleMantissa_doublePattern, hinf, hzero, hleast, hclear, htop]
  dsimp only
  have hnan : (classify f.exponent f.mantissa).GivesNaN → _ := FpClass.GivesNaN.row
  obtain ⟨hclass, hv⟩ | ⟨hclass, hv⟩ | ⟨hclass, hv⟩ | ⟨hclass, r, hr, hv⟩ := convertFields_eq_ok hg
  · obtain ⟨he, hm⟩ := (classify_eq_iff _ _ _).mp hclass
    cases hv
    exact ⟨iff_of_false (by decide) (by omega), fun h => absurd h (by decide),
      iff_of_false (by decide) fun h => by have := hnan h; omega, iff_of_true rfl (.inl ⟨he, hm⟩)⟩
  · obtain ⟨he, hm⟩ := infinity_row hclass
    have hnot : ¬ (classify f.exponent f.mantissa).GivesNaN := fun h => by have := hnan h; omega
    cases hv
    exact ⟨iff_of_true rfl he, fun _ => ⟨iff_of_true rfl hm, iff_of_false (by decide) hnot⟩,
      iff_of_false (by decide) hnot, iff_of_false (by decide) (by omega)⟩
  · obtain ⟨he, hm0, hm1⟩ := hnan hclass
    cases hv
    exact ⟨iff_of_true rfl he, fun _ => ⟨iff_of_false (by decide) (by omega), iff_of_true (by decide) hclass⟩,
      iff_of_true (by decide) hclass, iff_of_false (by decide) (by omega)⟩
  · obtain ⟨h0, h1⟩ := (classify_eq_iff _ _ _).mp hclass
    have hfinite := expOut_ne_of_normalizeOperand hr
    have hleastOut := expOut_eq_zero_iff hr
    cases hv
    refine ⟨iff_of_false hfinite (by omega), fun h => absurd h hfinite,
      iff_of_false (by simp [hfinite]) fun h => by have := hnan h; omega, hleastOut.trans ?_⟩
    omega

end Sys2Proof.Machine
end

section
/-! PROOFS. The ports right after reset, and the step on a word that decodes (R36, R192, R193). -/

namespace Sys2Proof.Machine

open Sys2Proof

/-- Settles O1: the reset state's ports are those of R192; `resetIsSettled` ties them to the blocks' functions of zero inputs. -/
theorem resetPortsReportInvalidLength : Obligations.ResetPortsReportInvalidLength :=
  ⟨rfl, rfl, rfl, rfl, rfl, rfl, rfl, rfl, rfl, rfl⟩

/-- Settles O4: the step's rule for a word that decodes. -/
theorem stepRunsDecodedInstruction : Obligations.StepRunsDecodedInstruction :=
  fun _ _ _ _ hp hd => step_of_decode_ok hp hd

end Sys2Proof.Machine
end
